-- ==== Sys2Proof/Word.lean ====
section
/-! DEFINITION. The value types of 00_scope.md R8 and R70: every value of the engine is an unsigned field of fixed
width, bit 0 least significant (R6). -/

namespace Sys2Proof

/-- A 4-bit unsigned value, the cipher's atomic data unit (R8, R13). -/
abbrev Nibble := BitVec 4

/-- An 8-bit unsigned value; only the key words w0 to w5 are Words (R8). -/
abbrev Word := BitVec 8

/-- A 16-bit unsigned value: a key, a plaintext, a ciphertext or a result (R8, R73). -/
abbrev Block := BitVec 16

/-- The 2-bit opcode on `cmd_op` (R20, R72). -/
abbrev Opcode := BitVec 2

/-- The 18-bit CMD word `cmd_op || cmd_data` (R70). -/
abbrev CmdWord := BitVec 18

end Sys2Proof
end

