-- ==== Sys2Proof/Machine/State.lean ====
section
/-! DEFINITION. The engine's state: exactly the registers of 10_state.md R24, and the host's coming port values
(R20). Plain data throughout. -/

namespace Sys2Proof.Machine

/-- A State of the cipher (R8): exactly four nibbles, positions named by index only (R133). -/
@[ext]
structure CState where
  s0 : Nibble
  s1 : Nibble
  s2 : Nibble
  s3 : Nibble
  deriving DecidableEq, Repr, Inhabited

/-- The six key-word registers `W0` to `W5` (R25). -/
@[ext]
structure KeyWords where
  w0 : Word
  w1 : Word
  w2 : Word
  w3 : Word
  w4 : Word
  w5 : Word
  deriving DecidableEq, Repr, Inhabited

/-- The thirteen values of `fsm` (R31). Its binary encoding is not architectural. -/
inductive Fsm where
  | idle
  | kxW2 | kxW3 | kxW4 | kxW5
  | encS2 | encS3 | encS4 | encS5
  | decS2 | decS3 | decS4 | decS5
  deriving DecidableEq, Repr, Inhabited

/-- The input ports in one cycle (R20), as the rising edge that ends the cycle samples them (R21). -/
structure Pins where
  rst : Bool
  cmdValid : Bool
  cmdOp : Opcode
  cmdData : Block
  deriving DecidableEq, Repr

/-- The registers of R24 and, in `inputs`, what the host drives on the input ports in the coming cycles, this cycle
first. `inputs` is the model's own field: it stands for the host, not for storage of the engine (log entry 2). -/
@[ext]
structure State where
  /-- `W0` to `W5` (R25). -/
  key : KeyWords
  /-- `KEY_VALID` (R27). -/
  keyValid : Bool
  /-- `ST` (R28). -/
  st : CState
  /-- `RESULT` (R29). -/
  result : Block
  /-- `RSP_VALID` (R30). -/
  rspValid : Bool
  /-- `fsm` (R31). -/
  fsm : Fsm
  /-- The host's port values from this cycle on; cycles past the end of the list are `Pins.quiet`. -/
  inputs : List Pins
  deriving DecidableEq, Repr, Inhabited

/-- Reasons a step could stop the machine. -/
inductive Fault where
  /-- The one model fault R41 and R212 name: reading a `W` or `ST` register nothing has written. Nothing raises it:
  every register of this model holds a value at reset (log entry 1), and the spec shows that no run from a reset could
  reach it. It is kept so that "no step faults" is a claim about the machine, not about an empty type. Safe. -/
  | unwrittenRegister
  deriving DecidableEq, Repr

/-- Reasons a command has no meaning in the model. -/
inductive Refusal where
  /-- Raised by an arm of `exec` whose command has no meaning yet. No arm raises it: all four have one. Safe. -/
  | notModelled (mnemonic : String)
  deriving DecidableEq, Repr

/-- The engine right after a reset edge that follows power-up (R39), in a cycle in which the host drives nothing.
DESIGN CHOICE (log entry 1): R39 leaves `W0` to `W5` and `ST` unspecified, and the model names 0 for them. -/
def State.reset : State where
  key := ⟨0x00#8, 0x00#8, 0x00#8, 0x00#8, 0x00#8, 0x00#8⟩
  keyValid := false
  st := ⟨0x0#4, 0x0#4, 0x0#4, 0x0#4⟩
  result := 0x0000#16
  rspValid := false
  fsm := .idle
  inputs := []

end Sys2Proof.Machine
end

