-- ==== Sys2Proof/Machine/Conversion.lean ====
section
/-! DEFINITION. The Block to State converter and its inverse (42_state_conversion.md R130, R131), interleaved exactly
as written there (R134), and the two nibbles of a word (20_memory.md R54). -/

namespace Sys2Proof.Machine

/-- `B2S(n) = [ n[15:12], n[7:4], n[11:8], n[3:0] ]` (R130). -/
def b2s (n : Block) : CState :=
  ⟨n.extractLsb' 12 4, n.extractLsb' 4 4, n.extractLsb' 8 4, n.extractLsb' 0 4⟩

/-- `S2B(s) = (s[0] << 12) | (s[2] << 8) | (s[1] << 4) | s[3]` (R131). -/
def s2b (s : CState) : Block :=
  (s.s0.setWidth 16 <<< 12) ||| (s.s2.setWidth 16 <<< 8) ||| (s.s1.setWidth 16 <<< 4) ||| s.s3.setWidth 16

/-- `word[7:4]` (R54). -/
def highNibble (w : Word) : Nibble := w.extractLsb' 4 4

/-- `word[3:0]` (R54). -/
def lowNibble (w : Word) : Nibble := w.extractLsb' 0 4

/-- `(a << 4) | b`: a word from its two nibbles, the high one first. -/
def joinNibbles (a b : Nibble) : Word := a.setWidth 8 <<< 4 ||| b.setWidth 8

end Sys2Proof.Machine
end

