-- ==== Sys2Proof/Machine/Operands.lean ====
section
/-! DEFINITION. The operand forms: the views of a 16-bit key and of the key words (20_memory.md R54, R56;
41_key_expansion.md R114). Every command operand is the whole `cmd_data`, with no extension or shift (R73). -/

namespace Sys2Proof.Machine

/-- `key[15:8]`, the word w0 (R54). -/
def keyHigh (key : Block) : Word := key.extractLsb' 8 8

/-- `key[7:0]`, the word w1 (R54). -/
def keyLow (key : Block) : Word := key.extractLsb' 0 8

/-- `(a << 8) | b`: two words as one Block, the more significant first (R56). -/
def joinWords (a b : Word) : Block := a.setWidth 16 <<< 8 ||| b.setWidth 16

/-- The pre-round key `K0`, a view of `W0`, `W1` (R114). -/
def KeyWords.k0 (k : KeyWords) : CState := b2s (joinWords k.w0 k.w1)

/-- The round-1 key `K1`, a view of `W2`, `W3` (R114). -/
def KeyWords.k1 (k : KeyWords) : CState := b2s (joinWords k.w2 k.w3)

/-- The round-2 key `K2`, a view of `W4`, `W5` (R114). -/
def KeyWords.k2 (k : KeyWords) : CState := b2s (joinWords k.w4 k.w5)

end Sys2Proof.Machine
end

