-- ==== Sys2Proof/Config.lean ====
section
/-! DEFINITION. What the hardware fixes (00_scope.md R5): the widths checked outside the engine, the busy time of a
command, and the type of the one open parameter, the S-box (R100, 92_eei_decisions.md D14). Functions, edges,
commands, steps and transactions take it as an argument; its value for this hardware is `Sys2Proof.Machine.sbox`. The
spec leaves no result of a command open; the model's free values are those of the time before the first reset
(Machine/PowerUp.lean, log entry 10). -/

namespace Sys2Proof

/-- Width of a CMD word: `OPCODE_BITS` + `BLOCK_BITS` (R5, R70). -/
def Config.cmdBits : Nat := 18

/-- The largest 16-bit operand, 65535 (R73, R78). -/
def Config.maxImm : Nat := 65535

/-- `BUSY_CYCLES` of KEYLOAD, ENCRYPT and DECRYPT (R5, R173). -/
def Config.busyCycles : Nat := 4

/-- Sixteen distinct outputs for sixteen inputs: what R100 asks of the parameter `SBOX`. -/
def isBijection (table : Nibble → Nibble) : Bool :=
  decide (∀ x y : Nibble, table x = table y → x = y)

/-- The parameter `SBOX` of R100: a bijection from Nibble to Nibble, carried with its check. `SBOXI` is not a field:
it is computed from the table (R101, `Sys2Proof.Machine.sboxInverse`). -/
structure SBox where
  table : Nibble → Nibble
  bijective : isBijection table = true

end Sys2Proof
end

