-- ==== Sys2Proof/Syntax.lean ====
section
/-! DEFINITION. The four commands of 30_encoding.md R72, one constructor per row of spec/opcode_table.json. -/

namespace Sys2Proof

/-- A decoded command (R77). A NOP carries no operand: its `data` field is ignored and "a NOP with any other `data`
decodes to the same NOP". -/
inductive Instr where
  /-- `NOP` (R167). -/
  | nop
  /-- `KEYLOAD key` (R117). -/
  | keyload (key : Block)
  /-- `ENCRYPT p` (R163). -/
  | encrypt (block : Block)
  /-- `DECRYPT c` (R165). -/
  | decrypt (block : Block)
  deriving DecidableEq, Repr

end Sys2Proof
end

