-- ==== Sys2Proof/WellFormed.lean ====
section
/-! DEFINITION. The checks on what enters the model from outside: a raw CMD number, an assembler immediate, a candidate
S-box (`isBijection`, Config.lean). A decoded command itself is always well formed (R73, R74). -/

namespace Sys2Proof

/-- Every operand value 0x0000 to 0xFFFF is valid for every command (R73), and the types hold no other. -/
def Instr.wf : Instr → Bool
  | .nop => true
  | .keyload _ => true
  | .encrypt _ => true
  | .decrypt _ => true

/-- A number is a CMD word if and only if it fits the 18 bits of R70. -/
def isCmdWord (w : Nat) : Bool := decide (w < 2 ^ Config.cmdBits)

/-- An assembler immediate is in range if and only if it is 0 to 65535 (R78). -/
def isImm16 (n : Nat) : Bool := decide (n ≤ Config.maxImm)

end Sys2Proof
end

