-- ==== Sys2Proof/Decode.lean ====
section
/-! DEFINITION. The decoder and the encoder of 30_encoding.md R70 to R77. Decoding is total on CMD words (R74); only a
number that is no CMD word at all is rejected, by name. -/

namespace Sys2Proof

/-- Bits 17:16 of a CMD word, the port `cmd_op` (R70). -/
def opField (cmd : CmdWord) : Opcode := cmd.extractLsb' 16 2

/-- Bits 15:0 of a CMD word, the port `cmd_data` (R70). -/
def dataField (cmd : CmdWord) : Block := cmd.extractLsb' 0 16

/-- `cmd = cmd_op || cmd_data` (R70). -/
def cmdWord (op : Opcode) (data : Block) : CmdWord := op.setWidth 18 <<< 16 ||| data.setWidth 18

/-- Decoding of R77, on the opcode map of R72. -/
def decode (cmd : CmdWord) : Instr :=
  if opField cmd = 0b00#2 then .nop
  else if opField cmd = 0b01#2 then .keyload (dataField cmd)
  else if opField cmd = 0b10#2 then .encrypt (dataField cmd)
  else .decrypt (dataField cmd)

/-- Why a number is not decoded. -/
inductive DecodeReject where
  /-- The number does not fit the 18 bits of a CMD word (R70), so no setting of the ports is that number. -/
  | notACmdWord
  deriving DecidableEq, Repr

/-- Decoding of a raw number: a CMD word or a rejection by name (R70, R74). -/
def decodeRaw (w : Nat) : Except DecodeReject Instr :=
  if isCmdWord w then .ok (decode (BitVec.ofNat 18 w)) else .error .notACmdWord

/-- The decoder on an instruction given as the opcode table numbers its bits. The table gives a row 18 bits, that is
three whole bytes, the top six bits of them 0. -/
def decodeTableWord (nbits w : Nat) : Option Instr :=
  match decodeRaw (w % 2 ^ nbits) with
  | .ok i => some i
  | .error _ => none

/-! ### The encoder, from the same tables -/

/-- The value of `op` that selects a command (R72). -/
def Instr.opcode : Instr → Opcode
  | .nop => 0b00#2
  | .keyload _ => 0b01#2
  | .encrypt _ => 0b10#2
  | .decrypt _ => 0b11#2

/-- The operand a command carries in `data`; a NOP is encoded with data 0 (R77). -/
def Instr.operand : Instr → Block
  | .nop => 0#16
  | .keyload key => key
  | .encrypt block => block
  | .decrypt block => block

/-- The encoder of R77. -/
def encode : Instr → CmdWord
  | .nop => 0x00000#18
  | .keyload key => 0x10000#18 ||| key.setWidth 18
  | .encrypt block => 0x20000#18 ||| block.setWidth 18
  | .decrypt block => 0x30000#18 ||| block.setWidth 18

/-- One row of spec/opcode_table.json: a word belongs to it if and only if its bits under `mask` are `pattern`. -/
structure OpcodeRow where
  mask : CmdWord
  pattern : CmdWord
  deriving DecidableEq, Repr

/-- The row of the opcode table a command comes from. -/
def Instr.row : Instr → OpcodeRow
  | .nop => ⟨0x30000#18, 0x00000#18⟩
  | .keyload _ => ⟨0x30000#18, 0x10000#18⟩
  | .encrypt _ => ⟨0x30000#18, 0x20000#18⟩
  | .decrypt _ => ⟨0x30000#18, 0x30000#18⟩

/-- The word belongs to the row. -/
def OpcodeRow.covers (r : OpcodeRow) (cmd : CmdWord) : Bool := cmd &&& r.mask == r.pattern

/-- The four rows of the opcode table (R72). -/
def opcodeTable : List OpcodeRow :=
  [Instr.nop.row, (Instr.keyload 0).row, (Instr.encrypt 0).row, (Instr.decrypt 0).row]

end Sys2Proof
end

