-- ==== Sys2Proof/Machine/Ops.lean ====
section
/-! DEFINITION. The named operations over the registers and the ports, and the reset edge. The engine has no memory
(R50), no exception and no trap entry or return (R200, R205): the one operation that overrides a command from outside
is reset (R204). -/

namespace Sys2Proof.Machine

/-! ### Register writes: `NAME <- v` of R9 -/

/-- Writes `W0` to `W5`. -/
def State.setKey (s : State) (k : KeyWords) : State := { s with key := k }

/-- Writes `KEY_VALID`. -/
def State.setKeyValid (s : State) (b : Bool) : State := { s with keyValid := b }

/-- Writes `ST`. -/
def State.setSt (s : State) (c : CState) : State := { s with st := c }

/-- Writes `RESULT`. -/
def State.setResult (s : State) (r : Block) : State := { s with result := r }

/-- Writes `RSP_VALID`. -/
def State.setRspValid (s : State) (b : Bool) : State := { s with rspValid := b }

/-- `fsm <- f`. -/
def State.setFsm (s : State) (f : Fsm) : State := { s with fsm := f }

/-- Replaces what the host will drive on the input ports. -/
def State.setInputs (s : State) (l : List Pins) : State := { s with inputs := l }

/-! ### The input ports -/

/-- A cycle in which the host offers nothing and does not reset. DESIGN CHOICE (log entry 2): cycles past the end of
`inputs` are this. -/
def Pins.quiet : Pins := ⟨false, false, 0#2, 0#16⟩

/-- A cycle in which the host offers the command word `cmd`, each field on its port (R70). -/
def Pins.offer (cmd : CmdWord) : Pins := ⟨false, true, opField cmd, dataField cmd⟩

/-- A cycle in which the host resets the engine and offers nothing (R230). -/
def Pins.reset : Pins := ⟨true, false, 0#2, 0#16⟩

/-- The command word on the ports (R70). -/
def Pins.word (p : Pins) : CmdWord := cmdWord p.cmdOp p.cmdData

/-- The input ports in this cycle. -/
def State.pins (s : State) : Pins := s.inputs.headD Pins.quiet

/-- The same registers in the next cycle of the host. -/
def State.nextCycle (s : State) : State := s.setInputs s.inputs.tail

/-- The port values this cycle replaced by `p`, those of the later cycles kept. -/
def State.withPins (s : State) (p : Pins) : State := s.setInputs (p :: s.inputs.tail)

/-! ### Reset -/

/-- What a rising edge with `rst = 1` does, whatever the state (R231): four registers are written, `W0` to `W5` and
`ST` keep their values. -/
def resetEdge (s : State) : State :=
  (((s.setFsm .idle).setKeyValid false).setRspValid false).setResult 0x0000#16

end Sys2Proof.Machine
end

