-- ==== Sys2Proof/Machine/RoundPrimitives.lean ====
section
/-! DEFINITION. The GF(2^4) multiplier and the round primitives (43_round_primitives.md R140 to R148). -/

namespace Sys2Proof.Machine

/-- `GF_POLY`: x^4 + x + 1 (R5, R32). -/
def gfPoly : BitVec 5 := 0b10011#5

/-- One shift of `a` in R140: a 5-bit value whose bit 4 is tested BEFORE any masking (90_conflicts.md C2); the
reduction clears it, so four bits remain. -/
def gfShift (a : Nibble) : Nibble :=
  let shifted : BitVec 5 := a.setWidth 5 <<< 1
  let reduced := if shifted.getLsbD 4 then shifted ^^^ gfPoly else shifted
  reduced.setWidth 4

/-- `n` iterations of the loop of R140 on `a`, `b` and the running product `p`. -/
def gfLoop : Nat → Nibble → Nibble → Nibble → Nibble
  | 0, _, _, p => p
  | n + 1, a, b, p => gfLoop n (gfShift a) (b >>> 1) (if b.getLsbD 0 then p ^^^ a else p)

/-- `GFMul(a, b)`, multiplication in GF(2^4) modulo x^4 + x + 1 (R140). -/
def gfMul (a b : Nibble) : Nibble := gfLoop 4 a b 0#4

/-- `MIX_C` (R5, R146). -/
def mixC : Nibble := 4#4

/-- `IMIX_A` (R5, R147). -/
def imixA : Nibble := 9#4

/-- `IMIX_B` (R5, R147). -/
def imixB : Nibble := 2#4

/-- `ARK(a, b)`: XOR position by position (R145). -/
def ark (a b : CState) : CState := ⟨a.s0 ^^^ b.s0, a.s1 ^^^ b.s1, a.s2 ^^^ b.s2, a.s3 ^^^ b.s3⟩

/-- `MC(s)` (R146). -/
def mc (s : CState) : CState :=
  ⟨s.s0 ^^^ gfMul mixC s.s2, s.s1 ^^^ gfMul mixC s.s3, s.s2 ^^^ gfMul mixC s.s0, s.s3 ^^^ gfMul mixC s.s1⟩

/-- `IMC(s)` (R147). -/
def imc (s : CState) : CState :=
  ⟨gfMul imixA s.s0 ^^^ gfMul imixB s.s2, gfMul imixA s.s1 ^^^ gfMul imixB s.s3,
   gfMul imixA s.s2 ^^^ gfMul imixB s.s0, gfMul imixA s.s3 ^^^ gfMul imixB s.s1⟩

/-- `SR(s)`: positions 2 and 3 exchanged (R148). -/
def sr (s : CState) : CState := ⟨s.s0, s.s1, s.s3, s.s2⟩

end Sys2Proof.Machine
end

