-- ==== Sys2Proof/Machine/Substitution.lean ====
section
/-! DEFINITION. The nibble-substitution unit (40_substitution.md): the tables `SBOX` and `SBOXI` and SubNibbles. -/

namespace Sys2Proof.Machine

/-- The entries of `SBOX` (R100), indexed 0 to 15. PRESUMED (log entry 6): the spec takes them from general knowledge
(93_implementation_defined.md I1). -/
def sboxEntries : List Nibble :=
  [0x9#4, 0x4#4, 0xA#4, 0xB#4, 0xD#4, 0x1#4, 0x8#4, 0x5#4, 0x6#4, 0x2#4, 0x0#4, 0x3#4, 0xC#4, 0xE#4, 0xF#4, 0x7#4]

/-- `SBOX[x]`. -/
def sboxTable (x : Nibble) : Nibble := sboxEntries.getD x.toNat 0#4

/-- The value of the parameter `SBOX` for this hardware, with the check R102 asks of it. -/
def sbox : SBox := ⟨sboxTable, by decide⟩

/-- The sixteen nibbles. -/
def allNibbles : List Nibble := (List.range 16).map (BitVec.ofNat 4)

/-- `SBOXI[y]`: the nibble x with `SBOX[x] = y` (R101), found by search, for any value of the parameter. A bijection
has exactly one, so the value 0 after `getD` is never taken. -/
def sboxInverse (t : SBox) (y : Nibble) : Nibble := (allNibbles.find? fun x => t.table x == y).getD 0#4

/-- `SubNib(T, s)`: each nibble substituted in its own position (R104). -/
def subNib (t : Nibble → Nibble) (s : CState) : CState := ⟨t s.s0, t s.s1, t s.s2, t s.s3⟩

end Sys2Proof.Machine
end

