-- ==== Sys2Proof/Machine/Cipher.lean ====
section
/-! DEFINITION. The cipher functions and the edges of the encryption and decryption FSMs (44_cipher_commands.md R160
to R166). The functions and the edges that read it take the parameter `SBOX` (R5). -/

namespace Sys2Proof.Machine

/-- Steps 1 to 5 of Encrypt, the State before it is packed (R160). -/
def encryptState (t : SBox) (k0 k1 k2 : CState) (p : Block) : CState :=
  ark k2 (sr (subNib t.table (ark k1 (mc (sr (subNib t.table (ark k0 (b2s p))))))))

/-- `Encrypt(K0, K1, K2, p)` (R160). -/
def encryptBlock (t : SBox) (k0 k1 k2 : CState) (p : Block) : Block := s2b (encryptState t k0 k1 k2 p)

/-- Steps 1 to 5 of Decrypt, the State before it is packed (R161). -/
def decryptState (t : SBox) (k0 k1 k2 : CState) (c : Block) : CState :=
  ark k0 (subNib (sboxInverse t) (sr (imc (ark k1 (subNib (sboxInverse t) (sr (ark k2 (b2s c))))))))

/-- `Decrypt(K0, K1, K2, c)` (R161). -/
def decryptBlock (t : SBox) (k0 k1 k2 : CState) (c : Block) : Block := s2b (decryptState t k0 k1 k2 c)

/-- The writes of ENCRYPT at its accepting edge (R163), or none when no key is loaded: the command is dropped (R168). -/
def acceptEncrypt (p : Block) (s : State) : State :=
  if s.keyValid then (s.setSt (ark s.key.k0 (b2s p))).setFsm .encS2 else s

/-- The writes of DECRYPT at its accepting edge (R165), or none when no key is loaded: the command is dropped (R168). -/
def acceptDecrypt (c : Block) (s : State) : State :=
  if s.keyValid then (s.setSt (ark s.key.k2 (b2s c))).setFsm .decS2 else s

/-- The edge of `ENC_S2` (R164). -/
def edgeEncS2 (t : SBox) (s : State) : State := (s.setSt (mc (sr (subNib t.table s.st)))).setFsm .encS3

/-- The edge of `ENC_S3` (R164). -/
def edgeEncS3 (s : State) : State := (s.setSt (ark s.key.k1 s.st)).setFsm .encS4

/-- The edge of `ENC_S4` (R164). -/
def edgeEncS4 (t : SBox) (s : State) : State := (s.setSt (sr (subNib t.table s.st))).setFsm .encS5

/-- The edge of `ENC_S5` (R164): both right sides read the `ST` held before the edge. -/
def edgeEncS5 (s : State) : State :=
  ((s.setSt (ark s.key.k2 s.st)).setResult (s2b (ark s.key.k2 s.st))).setFsm .idle

/-- The edge of `DEC_S2` (R166). -/
def edgeDecS2 (t : SBox) (s : State) : State := (s.setSt (subNib (sboxInverse t) (sr s.st))).setFsm .decS3

/-- The edge of `DEC_S3` (R166). -/
def edgeDecS3 (s : State) : State := (s.setSt (imc (ark s.key.k1 s.st))).setFsm .decS4

/-- The edge of `DEC_S4` (R166). -/
def edgeDecS4 (t : SBox) (s : State) : State := (s.setSt (subNib (sboxInverse t) (sr s.st))).setFsm .decS5

/-- The edge of `DEC_S5` (R166): both right sides read the `ST` held before the edge. -/
def edgeDecS5 (s : State) : State :=
  ((s.setSt (ark s.key.k0 s.st)).setResult (s2b (ark s.key.k0 s.st))).setFsm .idle

end Sys2Proof.Machine
end

