-- ==== Sys2Proof/Machine/Flags.lean ====
section
/-! DEFINITION. The status bits. The engine has no condition codes (R36): its status is `KEY_VALID`, `RSP_VALID` and
the combinational `cmd_ready`, and the output ports show nothing else but `RESULT` (R20, R37). -/

namespace Sys2Proof.Machine

/-- The value `RSP_VALID` takes at every rising edge (R169). -/
def rspValidNext (rst : Bool) (fsm : Fsm) : Bool := !rst && (fsm == .encS5 || fsm == .decS5)

/-- The `RSP_VALID` write of R169 at an edge with `rst = 0`; applied before the edge's other writes, so that it reads
the `fsm` held before the edge (R9). -/
def latchRspValid (s : State) : State := s.setRspValid (rspValidNext false s.fsm)

/-- `cmd_ready = (fsm == IDLE) & !rst` (R23). DEDUCED (log entry 9): the `rst` is that of the same cycle. -/
def cmdReady (s : State) : Bool := s.fsm == .idle && !s.pins.rst

/-- The rising edge that ends this cycle accepts a command (R22). -/
def accepts (s : State) : Bool := !s.pins.rst && s.pins.cmdValid && cmdReady s

/-- The output ports (R20). -/
structure Outputs where
  cmdReady : Bool
  rspValid : Bool
  rspData : Block
  keyValid : Bool
  deriving DecidableEq, Repr, Inhabited

/-- What the host sees in this cycle; sampling it changes no state (R60). -/
def outputs (s : State) : Outputs := ⟨cmdReady s, s.rspValid, s.result, s.keyValid⟩

end Sys2Proof.Machine
end

