-- ==== Sys2Proof/Machine/KeyExpansion.lean ====
section
/-! DEFINITION. The key-expansion unit (41_key_expansion.md): the word functions, the pure schedule KeyExpansion, and
the edges of the key-expansion FSM. The functions and the edges that read it take the parameter `SBOX` (R5). -/

namespace Sys2Proof.Machine

/-- `RotWord(w) = (w[3:0] << 4) | w[7:4]` (R110). -/
def rotWord (w : Word) : Word := joinNibbles (lowNibble w) (highNibble w)

/-- `SubWord(w)`: each nibble through the forward table, never the inverse (R111). -/
def subWord (t : SBox) (w : Word) : Word := joinNibbles (t.table (highNibble w)) (t.table (lowNibble w))

/-- `RCON1` (R112). -/
def rcon1 : Word := 0x80#8

/-- `RCON2` (R112). -/
def rcon2 : Word := 0x30#8

/-- `KeyExpansion(key)`, the six key words (R113). -/
def keyExpansion (t : SBox) (key : Block) : KeyWords :=
  let w0 := keyHigh key
  let w1 := keyLow key
  let w2 := w0 ^^^ subWord t (rotWord w1) ^^^ rcon1
  let w3 := w2 ^^^ w1
  let w4 := w2 ^^^ subWord t (rotWord w3) ^^^ rcon2
  let w5 := w4 ^^^ w3
  ⟨w0, w1, w2, w3, w4, w5⟩

/-- The writes of KEYLOAD at its accepting edge (R117). -/
def acceptKeyload (key : Block) (s : State) : State :=
  ((s.setKey { s.key with w0 := keyHigh key, w1 := keyLow key }).setKeyValid false).setFsm .kxW2

/-- The edge of `KX_W2` (R118). -/
def edgeKxW2 (t : SBox) (s : State) : State :=
  (s.setKey { s.key with w2 := s.key.w0 ^^^ subWord t (rotWord s.key.w1) ^^^ rcon1 }).setFsm .kxW3

/-- The edge of `KX_W3` (R118). -/
def edgeKxW3 (s : State) : State :=
  (s.setKey { s.key with w3 := s.key.w2 ^^^ s.key.w1 }).setFsm .kxW4

/-- The edge of `KX_W4` (R118). -/
def edgeKxW4 (t : SBox) (s : State) : State :=
  (s.setKey { s.key with w4 := s.key.w2 ^^^ subWord t (rotWord s.key.w3) ^^^ rcon2 }).setFsm .kxW5

/-- The edge of `KX_W5` (R118). -/
def edgeKxW5 (s : State) : State :=
  ((s.setKey { s.key with w5 := s.key.w4 ^^^ s.key.w3 }).setKeyValid true).setFsm .idle

end Sys2Proof.Machine
end

