-- ==== Sys2Proof/Machine/Engine.lean ====
section
/-! DEFINITION. The orchestrator (44_cipher_commands.md R172): the FSM edge, and the two kinds of rising edge with
`rst = 0`, one at which the host offers a command and one at which it offers none (60_exceptions.md R204). All of it takes the parameter `SBOX` (00_scope.md R5). -/

namespace Sys2Proof.Machine

/-- The FSM step of the current state: the rows of R118, R164 and R166. In `IDLE` there is none. -/
def fsmStep (t : SBox) (s : State) : State :=
  match s.fsm with
  | .idle => s
  | .kxW2 => edgeKxW2 t s
  | .kxW3 => edgeKxW3 s
  | .kxW4 => edgeKxW4 t s
  | .kxW5 => edgeKxW5 s
  | .encS2 => edgeEncS2 t s
  | .encS3 => edgeEncS3 s
  | .encS4 => edgeEncS4 t s
  | .encS5 => edgeEncS5 s
  | .decS2 => edgeDecS2 t s
  | .decS3 => edgeDecS3 s
  | .decS4 => edgeDecS4 t s
  | .decS5 => edgeDecS5 s

/-- A rising edge with `rst = 0` at which no command is offered: R169's write and the FSM step. -/
def quietEdge (t : SBox) (s : State) : State := fsmStep t (latchRspValid s)

/-- A rising edge with `rst = 0` and `cmd_valid = 1`: in `IDLE` the command is accepted and `accept` is its row of
R170; in any other state it is not accepted, has no effect, and the FSM step is taken (R22, R23, R204, R243). -/
def offeredEdge (t : SBox) (accept : State → State) (s : State) : State :=
  if s.fsm = .idle then accept (latchRspValid s) else fsmStep t (latchRspValid s)

end Sys2Proof.Machine
end

