-- ==== Sys2Proof/Machine/Commands.lean ====
section
/-! DEFINITION. The meanings of the four commands: what one rising edge with `rst = 0` does when the host offers the
command (44_cipher_commands.md R170; DESIGN CHOICE, log entry 3). The edges after an acceptance are the FSM's (`fsmStep`); the whole effect of a
command, over all its edges, is `transact` (Machine/Transaction.lean, R175). Each meaning is written for any value of the
parameter `SBOX` (00_scope.md R5) and taken at this hardware's, `sbox`. -/

namespace Sys2Proof.Machine

/-- `NOP` (R167) on an engine with the S-box `t`: accepted in `IDLE`, it writes nothing but `RSP_VALID`. -/
def execNopWith (t : SBox) (s : State) : Host.Outcome State Fault Refusal := .next (offeredEdge t id s)

/-- `KEYLOAD key` (R117) on an engine with the S-box `t`. -/
def execKeyloadWith (t : SBox) (key : Block) (s : State) : Host.Outcome State Fault Refusal :=
  .next (offeredEdge t (acceptKeyload key) s)

/-- `ENCRYPT p` (R163, R168) on an engine with the S-box `t`. -/
def execEncryptWith (t : SBox) (p : Block) (s : State) : Host.Outcome State Fault Refusal :=
  .next (offeredEdge t (acceptEncrypt p) s)

/-- `DECRYPT c` (R165, R168) on an engine with the S-box `t`. -/
def execDecryptWith (t : SBox) (c : Block) (s : State) : Host.Outcome State Fault Refusal :=
  .next (offeredEdge t (acceptDecrypt c) s)

/-- The four meanings on an engine with the S-box `t` (R5, R170). -/
def execWith (t : SBox) (i : Instr) (s : State) : Host.Outcome State Fault Refusal :=
  match i with
  | .nop => execNopWith t s
  | .keyload key => execKeyloadWith t key s
  | .encrypt block => execEncryptWith t block s
  | .decrypt block => execDecryptWith t block s

/-- The rising edge that ends the current cycle, when an offered command is run by `run`. Reset has priority (R204); a
command on the ports is decoded and run (R170, R77); with no command offered, the FSM goes on by itself. -/
def stepBy (t : SBox) (run : Instr → State → Host.Outcome State Fault Refusal) (s : State) :
    Host.Outcome State Fault Refusal :=
  if s.pins.rst then .next (resetEdge s.nextCycle)
  else if s.pins.cmdValid then run (decode s.pins.word) s.nextCycle
  else .next (quietEdge t s.nextCycle)

/-- One step of an engine with the S-box `t` (R5: "a model takes `SBOX` as an argument"). -/
def stepWith (t : SBox) (s : State) : Host.Outcome State Fault Refusal := stepBy t (execWith t) s

/-! ### This hardware's meanings -/

/-- `NOP` (R167). -/
def execNop (s : State) : Host.Outcome State Fault Refusal := execNopWith sbox s

/-- `KEYLOAD key` (R117). -/
def execKeyload (key : Block) (s : State) : Host.Outcome State Fault Refusal := execKeyloadWith sbox key s

/-- `ENCRYPT p` (R163, R168). -/
def execEncrypt (p : Block) (s : State) : Host.Outcome State Fault Refusal := execEncryptWith sbox p s

/-- `DECRYPT c` (R165, R168). -/
def execDecrypt (c : Block) (s : State) : Host.Outcome State Fault Refusal := execDecryptWith sbox c s

end Sys2Proof.Machine
end

