-- ==== Sys2Proof/Machine/Dispatch.lean ====
section
/-! DEFINITION. The dispatch of a decoded command to its meaning, one arm per constructor of Instr. -/

namespace Sys2Proof.Machine

def exec (i : Instr) (s : State) : Host.Outcome State Fault Refusal :=
  match i with
  | .nop => Sys2Proof.Machine.execNop s
  | .keyload key => Sys2Proof.Machine.execKeyload key s
  | .encrypt block => Sys2Proof.Machine.execEncrypt block s
  | .decrypt block => Sys2Proof.Machine.execDecrypt block s

end Sys2Proof.Machine
end

