-- ==== Sys2Proof/Machine/Step.lean ====
section
/-! DEFINITION. One step: one rising edge of `clk` (10_state.md R21, 92_eei_decisions.md D1). -/

namespace Sys2Proof.Machine

/-- One step of this hardware: its S-box is `sbox` (R100), a command on the ports is run by `exec`. DESIGN CHOICE (log
entry 3): the model is cycle level (R14). -/
def step (s : State) : Host.Outcome State Fault Refusal := stepBy sbox exec s

/-- `s` with the command `w` on the command port in this cycle, `rst = 0`, and the FSM in `IDLE`, which is all that
an acceptance at the very next edge takes (R22). The engine fetches no instruction (R35, R50): this is what the host
does when it offers a command. DESIGN CHOICE (log entry 3). -/
def State.withFetchWord (s : State) (nbits w : Nat) : State :=
  (s.withPins (Pins.offer (BitVec.ofNat 18 (w % 2 ^ nbits)))).setFsm .idle

end Sys2Proof.Machine
end

