-- ==== Sys2Proof/Machine/Assembler.lean ====
section
/-! DEFINITION. The host's listing (30_encoding.md R78 to R80): one line of source text, as a list of characters, to
the operations the host performs, and a listing, line by line. DESIGN CHOICE (log entry 7) for the lexical points R78
leaves open. -/

namespace Sys2Proof.Machine

/-- One operation of the host: a command, a command whose operand is the last captured result, or a directive. -/
inductive HostOp where
  /-- A command line of R78. -/
  | command (i : Instr)
  /-- `ENCRYPT @RESULT` (R80). -/
  | encryptResult
  /-- `DECRYPT @RESULT` (R80). -/
  | decryptResult
  /-- `WAITKEY`: wait until `key_valid = 1` (R79). -/
  | waitKey
  /-- `WAITRSP`: wait for the cycle in which `rsp_valid = 1`, then capture `rsp_data` (R79). -/
  | waitRsp
  /-- `EXPECT v`: check the last captured `@RESULT` (R79). -/
  | expect (v : Block)
  deriving DecidableEq, Repr

/-- Why a line is refused by the assembler. -/
inductive AsmError where
  /-- The line starts with no command, directive or pseudo-instruction of R78 to R80. -/
  | unknownMnemonic
  /-- The operands are not those the mnemonic takes. -/
  | wrongOperands
  /-- An operand is no `imm16` of the grammar of R78. -/
  | badImmediate
  /-- An immediate outside 0 to 65535: "an assembler error, never truncated" (R78). -/
  | immediateOutOfRange
  deriving DecidableEq, Repr

/-- The value of a digit character; both cases of a hexadecimal digit are read (log entry 7). -/
def digitValue (c : Char) : Option Nat :=
  let n := c.toNat
  if 48 ≤ n ∧ n ≤ 57 then some (n - 48)
  else if 65 ≤ n ∧ n ≤ 70 then some (n - 55)
  else if 97 ≤ n ∧ n ≤ 102 then some (n - 87)
  else none

/-- The digits of a number in a base, appended to the value read so far. -/
def readDigits (base acc : Nat) : List Char → Option Nat
  | [] => some acc
  | c :: cs =>
    match digitValue c with
    | some d => if d < base then readDigits base (base * acc + d) cs else none
    | none => none

/-- One to `most` digits of a number in a base. -/
def readNumber (base most : Nat) (cs : List Char) : Option Nat :=
  if cs.isEmpty || most < cs.length then none else readDigits base 0 cs

/-- `imm16 := '0x' hexdigit[1..4] | '0b' bindigit[1..16] | decimal` (R78), before the range check. -/
def readImm : List Char → Option Nat
  | '0' :: 'x' :: cs => readNumber 16 4 cs
  | '0' :: 'b' :: cs => readNumber 2 16 cs
  | cs => readNumber 10 cs.length cs

/-- An operand in range, or the error (R78). -/
def parseImm (cs : List Char) : Except AsmError Block :=
  match readImm cs with
  | none => .error .badImmediate
  | some n => if isImm16 n then .ok (BitVec.ofNat 16 n) else .error .immediateOutOfRange

/-- The line before its comment: `[';' comment]` of R78. -/
def stripComment (cs : List Char) : List Char := cs.takeWhile (· != ';')

/-- Adds a finished token, if there is one. -/
def pushToken (cur : List Char) (rest : List (List Char)) : List (List Char) :=
  if cur.isEmpty then rest else cur :: rest

/-- Splits a line at blanks; a comma is a token of its own (log entry 7). -/
def tokenize (cur : List Char) : List Char → List (List Char)
  | [] => pushToken cur []
  | c :: cs =>
    if c = ' ' ∨ c = '\t' then pushToken cur (tokenize [] cs)
    else if c = ',' then pushToken cur ([','] :: tokenize [] cs)
    else tokenize (cur ++ [c]) cs

/-- `@RESULT` (R79, R80). -/
def atResult : List Char := ['@', 'R', 'E', 'S', 'U', 'L', 'T']

/-- The expansion of `ROUNDTRIP k, p` (R80). -/
def roundtrip (k p : Block) : List HostOp :=
  [.command (.keyload k), .waitKey, .command (.encrypt p), .waitRsp, .decryptResult, .waitRsp]

/-- A command that takes one immediate. -/
def withImm (f : Block → HostOp) (arg : List Char) : Except AsmError (List HostOp) :=
  match parseImm arg with
  | .ok v => .ok [f v]
  | .error e => .error e

/-- `ROUNDTRIP` on its two operands. DESIGN CHOICE (log entry 7): both are an `imm16`, and `@RESULT` is refused as one,
although the expansion `ENCRYPT @RESULT` would be legal; R80 does not say. -/
def parseRoundtrip (k p : List Char) : Except AsmError (List HostOp) :=
  match parseImm k, parseImm p with
  | .ok k, .ok p => .ok (roundtrip k p)
  | .error e, _ => .error e
  | _, .error e => .error e

/-- The mnemonics of R78 to R80. -/
inductive Mnemonic where
  | nop | keyload | encrypt | decrypt | waitKey | waitRsp | expect | roundtrip
  deriving DecidableEq, Repr

/-- The spelling of each mnemonic, upper case (R78). -/
def mnemonicTable : List (List Char × Mnemonic) :=
  [(['N', 'O', 'P'], .nop), (['K', 'E', 'Y', 'L', 'O', 'A', 'D'], .keyload),
   (['E', 'N', 'C', 'R', 'Y', 'P', 'T'], .encrypt), (['D', 'E', 'C', 'R', 'Y', 'P', 'T'], .decrypt),
   (['W', 'A', 'I', 'T', 'K', 'E', 'Y'], .waitKey), (['W', 'A', 'I', 'T', 'R', 'S', 'P'], .waitRsp),
   (['E', 'X', 'P', 'E', 'C', 'T'], .expect), (['R', 'O', 'U', 'N', 'D', 'T', 'R', 'I', 'P'], .roundtrip)]

/-- The operations of a mnemonic with its operands: R78's `imm16`, `@RESULT` where R80 lists it. DESIGN CHOICE (log
entry 7): the `v` of `EXPECT v` (R79) is an `imm16` too. -/
def parseOperands (m : Mnemonic) (args : List (List Char)) : Except AsmError (List HostOp) :=
  match m, args with
  | .nop, [] => .ok [.command .nop]
  | .keyload, [a] => withImm (fun v => .command (.keyload v)) a
  | .encrypt, [a] => if a = atResult then .ok [.encryptResult] else withImm (fun v => .command (.encrypt v)) a
  | .decrypt, [a] => if a = atResult then .ok [.decryptResult] else withImm (fun v => .command (.decrypt v)) a
  | .waitKey, [] => .ok [.waitKey]
  | .waitRsp, [] => .ok [.waitRsp]
  | .expect, [a] => withImm .expect a
  | .roundtrip, [k, c, p] => if c = [','] then parseRoundtrip k p else .error .wrongOperands
  | _, _ => .error .wrongOperands

/-- One line of a listing: `line := [command] [';' comment]` (R78). An empty line is no operation. -/
def assembleLine (line : List Char) : Except AsmError (List HostOp) :=
  match tokenize [] (stripComment line) with
  | [] => .ok []
  | name :: args =>
    match mnemonicTable.lookup name with
    | some m => parseOperands m args
    | none => .error .unknownMnemonic

/-- A listing, one command a line (R78); the first refused line refuses it. -/
def assemble : List (List Char) → Except AsmError (List HostOp)
  | [] => .ok []
  | line :: rest =>
    match assembleLine line with
    | .error e => .error e
    | .ok ops =>
      match assemble rest with
      | .error e => .error e
      | .ok more => .ok (ops ++ more)

/-- The command a host operation offers, when the last captured result is `captured`; a directive offers none. An
`@RESULT` command with nothing captured offers none, DESIGN CHOICE (log entry 8). -/
def HostOp.instr (captured : Option Block) : HostOp → Option Instr
  | .command i => some i
  | .encryptResult => captured.map .encrypt
  | .decryptResult => captured.map .decrypt
  | .waitKey => none
  | .waitRsp => none
  | .expect _ => none

/-- The CMD word a line's operation assembles to; directives assemble to none (R78, R79). -/
def HostOp.word (captured : Option Block) (op : HostOp) : Option CmdWord := (op.instr captured).map encode

/-! ### Source text of a command, in the syntax of R78 -/

/-- The hexadecimal digit of a nibble, upper case. -/
def hexDigit (n : Nibble) : Char := if n.toNat < 10 then Char.ofNat (48 + n.toNat) else Char.ofNat (55 + n.toNat)

/-- `0x` and the four hexadecimal digits of a 16-bit value, an `imm16` of R78. -/
def hexText (v : Block) : List Char :=
  ['0', 'x', hexDigit (v.extractLsb' 12 4), hexDigit (v.extractLsb' 8 4), hexDigit (v.extractLsb' 4 4),
   hexDigit (v.extractLsb' 0 4)]

/-- A command line of R78 for a command. -/
def sourceLine : Instr → List Char
  | .nop => ['N', 'O', 'P']
  | .keyload key => ['K', 'E', 'Y', 'L', 'O', 'A', 'D', ' '] ++ hexText key
  | .encrypt block => ['E', 'N', 'C', 'R', 'Y', 'P', 'T', ' '] ++ hexText block
  | .decrypt block => ['D', 'E', 'C', 'R', 'Y', 'P', 'T', ' '] ++ hexText block

end Sys2Proof.Machine
end

