-- ==== Sys2Proof/Machine/HostProgram.lean ====
section
/-! DEFINITION. A host that runs a listing against the engine (30_encoding.md R79, R80; 70_reset_and_hazards.md R236
to R239): it presents each command in the first cycle in which it may and lowers `cmd_valid` after each acceptance
(95_test_vectors.md section 5). It drives the command ports; `rst` stays what the engine's `inputs` list says. -/

namespace Sys2Proof.Machine

/-- The host beside its engine. -/
structure HostSys where
  engine : State
  /-- What is left of the listing. -/
  program : List HostOp
  /-- `@RESULT`: the last captured `rsp_data`, if any (R79). -/
  captured : Option Block
  /-- An EXPECT has failed (R79). -/
  failed : Bool
  deriving DecidableEq, Repr

/-- What the host holds of its listing in a cycle. -/
structure HostView where
  program : List HostOp
  captured : Option Block
  failed : Bool
  deriving DecidableEq, Repr

/-- Performs every directive at the head of the listing that this cycle's outputs satisfy (R79), up to the first
command or the first directive still waiting. DEDUCED (log entry 8): a satisfied directive takes no cycle, as in the
schedules of 95_test_vectors.md section 5. -/
def settle (o : Outputs) : List HostOp → Option Block → Bool → HostView
  | .waitKey :: rest, cap, bad => if o.keyValid then settle o rest cap bad else ⟨.waitKey :: rest, cap, bad⟩
  | .waitRsp :: rest, cap, bad => if o.rspValid then settle o rest (some o.rspData) bad else ⟨.waitRsp :: rest, cap, bad⟩
  | .expect v :: rest, cap, bad => settle o rest cap (bad || cap != some v)
  | .command i :: rest, cap, bad => ⟨.command i :: rest, cap, bad⟩
  | .encryptResult :: rest, cap, bad => ⟨.encryptResult :: rest, cap, bad⟩
  | .decryptResult :: rest, cap, bad => ⟨.decryptResult :: rest, cap, bad⟩
  | [], cap, bad => ⟨[], cap, bad⟩

/-- The host's operations in this cycle. -/
def HostSys.view (h : HostSys) : HostView := settle (outputs h.engine) h.program h.captured h.failed

/-- The command the host offers in this cycle. -/
def HostView.offered (v : HostView) : Option Instr :=
  match v.program with
  | [] => none
  | op :: _ => op.instr v.captured

/-- The ports the host drives in this cycle, `rst` being the engine's own input. -/
def HostView.pins (v : HostView) (rst : Bool) : Pins :=
  match v.offered with
  | some i => { Pins.offer (encode i) with rst := rst }
  | none => { Pins.quiet with rst := rst }

/-- The listing after the edge: the offered command is dropped if and only if the edge accepts it (R22, R237). -/
def HostView.after (v : HostView) (ready : Bool) : List HostOp :=
  if v.offered.isSome && ready then v.program.tail else v.program

/-- One cycle of host and engine together. -/
def HostSys.step (h : HostSys) : Host.Outcome HostSys Fault Refusal :=
  let v := h.view
  match Sys2Proof.Machine.step (h.engine.withPins (v.pins h.engine.pins.rst)) with
  | .next s => .next ⟨s, v.after (cmdReady h.engine), v.captured, v.failed⟩
  | .fault r => .fault r
  | .refused r => .refused r

/-- `n` cycles of host and engine together. -/
def HostSys.run : Nat → HostSys → Host.Outcome HostSys Fault Refusal
  | 0, h => .next h
  | n + 1, h =>
    match h.step with
    | .next h' => h'.run n
    | .fault r => .fault r
    | .refused r => .refused r

end Sys2Proof.Machine
end

