-- ==== Sys2Proof/Machine/PowerUp.lean ====
section
/-! DEFINITION. The engine from power-up on (70_reset_and_hazards.md R234, 10_state.md R40): before the first reset edge
every register and every output is unspecified, so each is a free value, a new one in every cycle; the first rising edge
with `rst = 1` makes it the engine of `step`. It stands beside State, which holds the registers of R24 "exactly these"
and starts after reset, as 93_implementation_defined.md section 2 asks. DESIGN CHOICE (log entry 10). -/

namespace Sys2Proof

/-- Free value: the registers of R24 in a cycle before the first reset edge (R40, R234), by the port values of the
cycles since power-up, latest first. Its `inputs` field is never used. -/
opaque Config.powerUpRegisters : List Machine.Pins → Machine.State

/-- Free value: the output ports in a cycle before the first reset edge (R40, R234: the engine may "drive any values"),
by the port values of the cycles since power-up, this cycle first. -/
opaque Config.powerUpOutputs : List Machine.Pins → Machine.Outputs

end Sys2Proof

namespace Sys2Proof.Machine

/-- The engine, powered up. -/
inductive Chip where
  /-- No reset edge has come since power-up (R234). `seen` holds the port values of the cycles gone by, latest first;
  `inputs` those to come, this cycle first. -/
  | unreset (seen inputs : List Pins)
  /-- A reset edge has come: every rule of the spec holds. -/
  | running (engine : State)
  deriving DecidableEq, Repr

/-- Power-up, with the port values the host will drive (R234, R244). -/
def Chip.powerUp (inputs : List Pins) : Chip := .unreset [] inputs

/-- The registers in this cycle: unspecified before the first reset edge (R40). -/
def Chip.registers : Chip → State
  | .unreset seen inputs => (Config.powerUpRegisters seen).setInputs inputs
  | .running s => s

/-- The output ports in this cycle: unspecified before the first reset edge (R40), and not tied to the registers. -/
def Chip.outputs : Chip → Outputs
  | .unreset seen inputs => Config.powerUpOutputs (inputs.headD Pins.quiet :: seen)
  | .running s => Machine.outputs s

/-- One rising edge. Before the first reset edge it may accept or ignore a command (R234): the next cycle's registers
are free. The reset edge is that of R231, "whatever the state", and leaves `W0` to `W5` and `ST` unspecified (R39). -/
def Chip.step (c : Chip) : Host.Outcome Chip Fault Refusal :=
  match c with
  | .unreset seen inputs =>
    if c.registers.pins.rst then .next (.running (resetEdge c.registers.nextCycle))
    else .next (.unreset (inputs.headD Pins.quiet :: seen) inputs.tail)
  | .running s =>
    match Machine.step s with
    | .next t => .next (.running t)
    | .fault r => .fault r
    | .refused r => .refused r

/-- `n` rising edges from power-up on. -/
def Chip.run : Nat → Chip → Host.Outcome Chip Fault Refusal
  | 0, c => .next c
  | n + 1, c =>
    match c.step with
    | .next d => d.run n
    | .fault r => .fault r
    | .refused r => .refused r

end Sys2Proof.Machine
end

