-- ==== Sys2Proof/Machine/Transaction.lean ====
section
/-! DEFINITION. The transaction-level semantics (44_cipher_commands.md R175): the whole effect of one accepted
command, written from the pure functions and not from the FSM. 00_scope.md R14 asks that both levels agree on the
outputs after each command completes; here they agree on every register. -/

namespace Sys2Proof.Machine

/-- The engine with the S-box `t`, in `IDLE` before, after the accepted command has completed (R175). `RSP_VALID` is as it stands in the
cycle after the last edge: 1 exactly when the command carries a response (R169). DESIGN CHOICE (log entry 5): `ST` is
left holding the last State of the command, which is not observable. -/
def transact (t : SBox) (i : Instr) (s : State) : State :=
  match i with
  | .nop => s.setRspValid false
  | .keyload key => ((s.setKey (keyExpansion t key)).setKeyValid true).setRspValid false
  | .encrypt p =>
    if s.keyValid then
      ((s.setSt (encryptState t s.key.k0 s.key.k1 s.key.k2 p)).setResult
        (encryptBlock t s.key.k0 s.key.k1 s.key.k2 p)).setRspValid true
    else s.setRspValid false
  | .decrypt c =>
    if s.keyValid then
      ((s.setSt (decryptState t s.key.k0 s.key.k1 s.key.k2 c)).setResult
        (decryptBlock t s.key.k0 s.key.k1 s.key.k2 c)).setRspValid true
    else s.setRspValid false

/-- Busy cycles of a command accepted in `s` (R5, R173, R245). -/
def busyTime (i : Instr) (s : State) : Nat :=
  match i with
  | .nop => 0
  | .keyload _ => Config.busyCycles
  | .encrypt _ => if s.keyValid then Config.busyCycles else 0
  | .decrypt _ => if s.keyValid then Config.busyCycles else 0

end Sys2Proof.Machine
end

