-- ==== Sys2Proof/Safety.lean ====
section
/-! DEFINITION. What holds of the engine in every state a run from reset reaches, in the terms the statements use. -/

namespace Sys2Proof.Machine

/-- The key-expansion FSM is in a state of R118. -/
def Fsm.isKx : Fsm → Bool
  | .kxW2 | .kxW3 | .kxW4 | .kxW5 => true
  | .idle | .encS2 | .encS3 | .encS4 | .encS5 | .decS2 | .decS3 | .decS4 | .decS5 => false

/-- An encryption or a decryption is in progress (R164, R166). -/
def Fsm.isCipher : Fsm → Bool
  | .encS2 | .encS3 | .encS4 | .encS5 | .decS2 | .decS3 | .decS4 | .decS5 => true
  | .idle | .kxW2 | .kxW3 | .kxW4 | .kxW5 => false

/-- The master key `W0 || W1` (R115). -/
def KeyWords.master (k : KeyWords) : Block := joinWords k.w0 k.w1

/-- The key words are those of one master key (R27, R113). -/
def KeyWords.expanded (k : KeyWords) : Bool := k == keyExpansion sbox k.master

/-- What the rows of R118 have already written in the state `f`. -/
def KeyWords.partlyExpanded (k : KeyWords) : Fsm → Bool
  | .kxW3 => k.w2 == (keyExpansion sbox k.master).w2
  | .kxW4 => k.w2 == (keyExpansion sbox k.master).w2 && k.w3 == (keyExpansion sbox k.master).w3
  | .kxW5 => k.w2 == (keyExpansion sbox k.master).w2 && k.w3 == (keyExpansion sbox k.master).w3
      && k.w4 == (keyExpansion sbox k.master).w4
  | .idle | .kxW2 | .encS2 | .encS3 | .encS4 | .encS5 | .decS2 | .decS3 | .decS4 | .decS5 => true

/-- The invariant of the registers. -/
structure Consistent (s : State) : Prop where
  /-- `KEY_VALID = 1` only with the six words of one key (R27). -/
  key_words : s.keyValid = true → s.key.expanded = true
  /-- `KEY_VALID = 0` while a KEYLOAD is in progress (R240). -/
  key_invalid : s.fsm.isKx = true → s.keyValid = false
  /-- The words already written by a KEYLOAD in progress are those of its key (R118). -/
  key_partial : s.key.partlyExpanded s.fsm = true
  /-- An ENCRYPT or DECRYPT is in progress only with a key loaded (R168, R170). -/
  cipher_key : s.fsm.isCipher = true → s.keyValid = true
  /-- `RSP_VALID = 1` only in `IDLE`, with a key loaded, and with the block of `ST` in `RESULT` (R164, R166, R169). -/
  response : s.rspValid = true → s.fsm = .idle ∧ s.keyValid = true ∧ s.result = s2b s.st

/-- The registers reset leaves unspecified, replaced by arbitrary values (R39, R41). -/
def State.withUnwritten (s : State) (k : KeyWords) (c : CState) : State := (s.setKey k).setSt c

/-- The host does not reset in this cycle nor in the `n - 1` after it. -/
def noResetFor (n : Nat) (s : State) : Bool := (s.inputs.take n).all fun p => !p.rst

/-- The host offers no ENCRYPT and no DECRYPT: only NOP and KEYLOAD words stand on the ports. -/
def neverCiphers (s : State) : Bool :=
  s.inputs.all fun p => !p.cmdValid || p.cmdOp == 0b00#2 || p.cmdOp == 0b01#2

/-- The host offers no KEYLOAD. -/
def neverLoads (s : State) : Bool := s.inputs.all fun p => !p.cmdValid || p.cmdOp != 0b01#2

/-- `n` rising edges, stopping at the first fault or refusal. -/
def run : Nat → State → Host.Outcome State Fault Refusal
  | 0, s => .next s
  | n + 1, s =>
    match step s with
    | .next t => run n t
    | .fault r => .fault r
    | .refused r => .refused r

/-- `n` rising edges of an engine with the S-box `t` (R5). -/
def runWith (t : SBox) : Nat → State → Host.Outcome State Fault Refusal
  | 0, s => .next s
  | n + 1, s =>
    match stepWith t s with
    | .next u => runWith t n u
    | .fault r => .fault r
    | .refused r => .refused r

/-- The fixed path of each command through the FSM (R172): the state after `f` when no reset intervenes and no command
is accepted. -/
def Fsm.successor : Fsm → Fsm
  | .idle => .idle
  | .kxW2 => .kxW3 | .kxW3 => .kxW4 | .kxW4 => .kxW5 | .kxW5 => .idle
  | .encS2 => .encS3 | .encS3 => .encS4 | .encS4 => .encS5 | .encS5 => .idle
  | .decS2 => .decS3 | .decS3 => .decS4 | .decS4 => .decS5 | .decS5 => .idle

/-- Where an accepted command enters its path (R170, R172). -/
def entryState (keyValid : Bool) : Instr → Fsm
  | .nop => .idle
  | .keyload _ => .kxW2
  | .encrypt _ => if keyValid then .encS2 else .idle
  | .decrypt _ => if keyValid then .decS2 else .idle

/-- The port values of a host that presents each command in a cycle of its own and then offers nothing for four. -/
def spacedInputs : List Instr → List Pins
  | [] => []
  | i :: rest => Pins.offer (encode i) :: (List.replicate Config.busyCycles Pins.quiet ++ spacedInputs rest)

/-- The commands of a list, each with its whole effect (R175), in order (R62). A cycle without an acceptance ends the
response pulse (R169), so a command's own pulse is over when the next command comes. -/
def transactAll : List Instr → State → State
  | [], s => s
  | i :: rest, s => transactAll rest (transact sbox i s)

/-- The text of a number's digits, most significant first, hexadecimal ones upper case. -/
def digitText (ds : List Nat) : List Char := ds.map fun d => hexDigit (BitVec.ofNat 4 d)

/-- The number that digits stand for in a base, most significant first. -/
def digitsValue (base : Nat) (ds : List Nat) : Nat := ds.foldl (fun n d => base * n + d) 0

/-- The grammar of `imm16` in R78, and the number each text stands for: decimal, `0b` and 1 to 16 binary digits, `0x`
and 1 to 4 hexadecimal digits. Lower-case hexadecimal digits are the model's own (log entry 7) and not in it. -/
inductive ImmText : List Char → Nat → Prop where
  | decimal (ds : List Nat) (nonempty : ds ≠ []) (digits : ∀ d ∈ ds, d < 10) :
    ImmText (digitText ds) (digitsValue 10 ds)
  | binary (ds : List Nat) (nonempty : ds ≠ []) (short : ds.length ≤ 16) (digits : ∀ d ∈ ds, d < 2) :
    ImmText ('0' :: 'b' :: digitText ds) (digitsValue 2 ds)
  | hexadecimal (ds : List Nat) (nonempty : ds ≠ []) (short : ds.length ≤ 4) (digits : ∀ d ∈ ds, d < 16) :
    ImmText ('0' :: 'x' :: digitText ds) (digitsValue 16 ds)

/-- The lines of R78 and R79 that take one `imm16`: the mnemonic and the operation it makes. -/
def immLines : List (List Char × (Block → HostOp)) :=
  [(['K', 'E', 'Y', 'L', 'O', 'A', 'D'], fun v => .command (.keyload v)),
   (['E', 'N', 'C', 'R', 'Y', 'P', 'T'], fun v => .command (.encrypt v)),
   (['D', 'E', 'C', 'R', 'Y', 'P', 'T'], fun v => .command (.decrypt v)),
   (['E', 'X', 'P', 'E', 'C', 'T'], .expect)]

/-- The line `ROUNDTRIP k, p` of R80 on the two operand texts. -/
def roundtripLine (k p : List Char) : List Char :=
  ['R', 'O', 'U', 'N', 'D', 'T', 'R', 'I', 'P', ' '] ++ k ++ [',', ' '] ++ p

/-- The product table of R143: row a, column b, as natural numbers. -/
def gfProducts : List (List Nat) :=
  [[0x0, 0x0, 0x0, 0x0, 0x0, 0x0, 0x0, 0x0, 0x0, 0x0, 0x0, 0x0, 0x0, 0x0, 0x0, 0x0],
   [0x0, 0x1, 0x2, 0x3, 0x4, 0x5, 0x6, 0x7, 0x8, 0x9, 0xA, 0xB, 0xC, 0xD, 0xE, 0xF],
   [0x0, 0x2, 0x4, 0x6, 0x8, 0xA, 0xC, 0xE, 0x3, 0x1, 0x7, 0x5, 0xB, 0x9, 0xF, 0xD],
   [0x0, 0x3, 0x6, 0x5, 0xC, 0xF, 0xA, 0x9, 0xB, 0x8, 0xD, 0xE, 0x7, 0x4, 0x1, 0x2],
   [0x0, 0x4, 0x8, 0xC, 0x3, 0x7, 0xB, 0xF, 0x6, 0x2, 0xE, 0xA, 0x5, 0x1, 0xD, 0x9],
   [0x0, 0x5, 0xA, 0xF, 0x7, 0x2, 0xD, 0x8, 0xE, 0xB, 0x4, 0x1, 0x9, 0xC, 0x3, 0x6],
   [0x0, 0x6, 0xC, 0xA, 0xB, 0xD, 0x7, 0x1, 0x5, 0x3, 0x9, 0xF, 0xE, 0x8, 0x2, 0x4],
   [0x0, 0x7, 0xE, 0x9, 0xF, 0x8, 0x1, 0x6, 0xD, 0xA, 0x3, 0x4, 0x2, 0x5, 0xC, 0xB],
   [0x0, 0x8, 0x3, 0xB, 0x6, 0xE, 0x5, 0xD, 0xC, 0x4, 0xF, 0x7, 0xA, 0x2, 0x9, 0x1],
   [0x0, 0x9, 0x1, 0x8, 0x2, 0xB, 0x3, 0xA, 0x4, 0xD, 0x5, 0xC, 0x6, 0xF, 0x7, 0xE],
   [0x0, 0xA, 0x7, 0xD, 0xE, 0x4, 0x9, 0x3, 0xF, 0x5, 0x8, 0x2, 0x1, 0xB, 0x6, 0xC],
   [0x0, 0xB, 0x5, 0xE, 0xA, 0x1, 0xF, 0x4, 0x7, 0xC, 0x2, 0x9, 0xD, 0x6, 0x8, 0x3],
   [0x0, 0xC, 0xB, 0x7, 0x5, 0x9, 0xE, 0x2, 0xA, 0x6, 0x1, 0xD, 0xF, 0x3, 0x4, 0x8],
   [0x0, 0xD, 0x9, 0x4, 0x1, 0xC, 0x8, 0x5, 0x2, 0xF, 0xB, 0x6, 0x3, 0xE, 0xA, 0x7],
   [0x0, 0xE, 0xF, 0x1, 0xD, 0x3, 0x2, 0xC, 0x9, 0x7, 0x6, 0x8, 0x4, 0xA, 0xB, 0x5],
   [0x0, 0xF, 0xD, 0x2, 0x9, 0x6, 0x4, 0xB, 0x1, 0xE, 0xC, 0x3, 0x8, 0x7, 0x5, 0xA]]

/-- The pairs of multiplicative inverses of R142, written both ways. -/
def gfInverses : List (Nibble × Nibble) :=
  [(0x1#4, 0x1#4), (0x2#4, 0x9#4), (0x9#4, 0x2#4), (0x3#4, 0xE#4), (0xE#4, 0x3#4), (0x4#4, 0xD#4), (0xD#4, 0x4#4),
   (0x5#4, 0xB#4), (0xB#4, 0x5#4), (0x6#4, 0x7#4), (0x7#4, 0x6#4), (0x8#4, 0xF#4), (0xF#4, 0x8#4), (0xA#4, 0xC#4),
   (0xC#4, 0xA#4)]

/-- The entries of `SBOXI` as R101 lists them, indexed 0 to 15. -/
def sboxiEntries : List Nibble :=
  [0xA#4, 0x5#4, 0x9#4, 0xB#4, 0x1#4, 0x7#4, 0x8#4, 0xF#4, 0x6#4, 0x0#4, 0x2#4, 0x3#4, 0xC#4, 0x4#4, 0xD#4, 0xE#4]

end Sys2Proof.Machine
end

