-- ==== Sys2Proof/Certificates/Slice0/Obligations.lean ====
section
/-! DEFINITION. The statements for the provers. Each docstring names the rule or section of spec/ it formalises. A rule
the spec itself marks as derived is cited by its section only. The engine has no memory, no exception registers and no
general registers (R34, R50, R205), so no statement speaks of them; the frames are equations of whole states. -/

open Sys2Proof Sys2Proof.Machine

/-! ### Encoding (30_encoding.md) -/

/-- The words of 95_test_vectors.md section 4, bits 17:16 the opcode, decode to the commands listed there (R72). -/
def Obligations.DecodesWrittenWords : Prop :=
  decode 0b00_0000000000000000#18 = .nop ∧ decode 0b00_1111111111111111#18 = .nop ∧
  decode 0b01_0011001001000010#18 = .keyload 0x3242#16 ∧ decode 0b01_1111111111111111#18 = .keyload 0xFFFF#16 ∧
  decode 0b10_1100110011010000#18 = .encrypt 0xCCD0#16 ∧ decode 0b10_0001001000110100#18 = .encrypt 0x1234#16 ∧
  decode 0b11_1010111001100011#18 = .decrypt 0xAE63#16 ∧ decode 0b11_1111111111111111#18 = .decrypt 0xFFFF#16

/-- R77: the decoder by the value of `op`, the encoder's words, and that each undoes the other, a NOP word with any
data decoding to the one NOP. -/
def Obligations.DecodeAndEncodeAgree : Prop :=
  (∀ data : Block, decode (cmdWord 0b00#2 data) = .nop ∧ decode (cmdWord 0b01#2 data) = .keyload data ∧
    decode (cmdWord 0b10#2 data) = .encrypt data ∧ decode (cmdWord 0b11#2 data) = .decrypt data) ∧
  (∀ data : Block, (encode (.keyload data)).toNat = 0x10000 + data.toNat ∧
    (encode (.encrypt data)).toNat = 0x20000 + data.toNat ∧
    (encode (.decrypt data)).toNat = 0x30000 + data.toNat ∧ (encode .nop).toNat = 0) ∧
  (∀ i : Instr, i.wf = true → decode (encode i) = i) ∧
  (∀ cmd : CmdWord, opField cmd ≠ 0b00#2 → encode (decode cmd) = cmd) ∧
  (∀ cmd : CmdWord, cmdWord (opField cmd) (dataField cmd) = cmd)

/-- R74: every number of 18 bits is decoded, to a well-formed command, and lies in exactly one row of the opcode
table, that command's; a number that is no CMD word is rejected by name. -/
def Obligations.EveryCmdWordIsOneCommand : Prop :=
  (∀ w : Nat, w < 2 ^ 18 → ∃ i : Instr, decodeRaw w = .ok i ∧ i.wf = true ∧
    opcodeTable.filter (fun r => r.covers (BitVec.ofNat 18 w)) = [i.row]) ∧
  (∀ w : Nat, 2 ^ 18 ≤ w → decodeRaw w = .error .notACmdWord)

/-- The next step runs the command placed on the ports by `withFetchWord` (the model's own operation, log entry 3):
whatever the state, a word below 2^18 given as the three bytes of its row is decoded and executed. -/
def Obligations.PlacedCommandRunsNext : Prop :=
  ∀ (s : State) (w : Nat), w < 2 ^ 18 → ∃ i : Instr, decodeTableWord 24 w = some i ∧
    step (s.withFetchWord 24 w) = exec i (s.nextCycle.setFsm .idle)

/-! ### Substitution (40_substitution.md) -/

/-- R102, for every value of the parameter `SBOX`: the table and the computed inverse undo each other. The parameter is
checked to be a bijection, and this hardware's value passes the check. -/
def Obligations.SboxTablesAreMutualInverses : Prop :=
  (∀ (t : SBox) (x : Nibble), sboxInverse t (t.table x) = x ∧ t.table (sboxInverse t x) = x) ∧
  isBijection sboxTable = true

/-- The entries of `SBOX` and `SBOXI` for this hardware. PRESUMED (log entry 6): the spec takes them from general
knowledge (93_implementation_defined.md I1). -/
def Obligations.SboxHoldsTheStandardTable : Prop :=
  ∀ x : Nibble, sbox.table x =
      ([0x9#4, 0x4#4, 0xA#4, 0xB#4, 0xD#4, 0x1#4, 0x8#4, 0x5#4, 0x6#4, 0x2#4, 0x0#4, 0x3#4, 0xC#4, 0xE#4, 0xF#4,
        0x7#4] : List Nibble).getD x.toNat 0#4 ∧
    sboxInverse sbox x = sboxiEntries.getD x.toNat 0#4

/-- 40_substitution.md section 2 and 43_round_primitives.md section 3 (R105, R152, which the spec marks derived):
SubNibbles substitutes each nibble in its own position (R104), is undone through the other table, for any S-box, and
commutes with ShiftRows. -/
def Obligations.SubNibblesInvertsAndCommutesWithShiftRows : Prop :=
  ∀ (t : SBox) (s : CState),
    subNib t.table s = ⟨t.table s.s0, t.table s.s1, t.table s.s2, t.table s.s3⟩ ∧
    subNib (sboxInverse t) s =
      ⟨sboxInverse t s.s0, sboxInverse t s.s1, sboxInverse t s.s2, sboxInverse t s.s3⟩ ∧
    subNib (sboxInverse t) (subNib t.table s) = s ∧ subNib t.table (subNib (sboxInverse t) s) = s ∧
    subNib t.table (sr s) = sr (subNib t.table s) ∧
    subNib (sboxInverse t) (sr s) = sr (subNib (sboxInverse t) s)

/-! ### Key expansion (41_key_expansion.md) -/

/-- 41_key_expansion.md section 4 (R119, which the spec marks derived): SubWord and RotWord commute, and RotWord undoes
itself (R110). -/
def Obligations.SubWordCommutesWithRotWord : Prop :=
  ∀ (t : SBox) (w : Word), subWord t (rotWord w) = rotWord (subWord t w) ∧ rotWord (rotWord w) = w

/-- 41_key_expansion.md section 4 (R120, which the spec marks derived): the key schedule nibble by nibble. -/
def Obligations.KeyScheduleByNibbles : Prop :=
  ∀ (t : SBox) (key : Block),
    let k := keyExpansion t key
    k.w0 = key.extractLsb' 8 8 ∧ k.w1 = key.extractLsb' 0 8 ∧
    highNibble k.w2 = highNibble k.w0 ^^^ t.table (lowNibble k.w1) ^^^ 0x8#4 ∧
    lowNibble k.w2 = lowNibble k.w0 ^^^ t.table (highNibble k.w1) ∧
    k.w3 = k.w2 ^^^ k.w1 ∧
    highNibble k.w4 = highNibble k.w2 ^^^ t.table (lowNibble k.w3) ^^^ 0x3#4 ∧
    lowNibble k.w4 = lowNibble k.w2 ^^^ t.table (highNibble k.w3) ∧
    k.w5 = k.w4 ^^^ k.w3

/-- 20_memory.md section 2 and 41_key_expansion.md section 2 (R56, R115, which the spec marks derived): the nibbles of
the three round-key views, and that the pre-round key is the master key in State form. -/
def Obligations.RoundKeysInterleaveTheKeyWords : Prop :=
  (∀ k : KeyWords,
    k.k0 = ⟨highNibble k.w0, highNibble k.w1, lowNibble k.w0, lowNibble k.w1⟩ ∧
    k.k1 = ⟨highNibble k.w2, highNibble k.w3, lowNibble k.w2, lowNibble k.w3⟩ ∧
    k.k2 = ⟨highNibble k.w4, highNibble k.w5, lowNibble k.w4, lowNibble k.w5⟩) ∧
  (∀ (t : SBox) (key : Block), (keyExpansion t key).k0 = b2s key)

/-! ### State conversion (42_state_conversion.md) -/

/-- R130 and R131: each State position by its value, the packed Block as the sum of its fields, and the corner cases
and examples of both rules. -/
def Obligations.BlockAndStateBitFields : Prop :=
  (∀ n : Block, (b2s n).s0.toNat = n.toNat / 4096 ∧ (b2s n).s1.toNat = n.toNat / 16 % 16 ∧
    (b2s n).s2.toNat = n.toNat / 256 % 16 ∧ (b2s n).s3.toNat = n.toNat % 16) ∧
  (∀ s : CState, (s2b s).toNat = s.s0.toNat * 4096 + s.s2.toNat * 256 + s.s1.toNat * 16 + s.s3.toNat) ∧
  b2s 0x0000#16 = ⟨0x0#4, 0x0#4, 0x0#4, 0x0#4⟩ ∧ b2s 0xFFFF#16 = ⟨0xF#4, 0xF#4, 0xF#4, 0xF#4⟩ ∧
  b2s 0x1234#16 = ⟨0x1#4, 0x3#4, 0x2#4, 0x4#4⟩ ∧ b2s 0xCCD0#16 = ⟨0xC#4, 0xD#4, 0xC#4, 0x0#4⟩ ∧
  s2b ⟨0x1#4, 0x3#4, 0x2#4, 0x4#4⟩ = 0x1234#16 ∧ s2b ⟨0xA#4, 0x6#4, 0xE#4, 0x3#4⟩ = 0xAE63#16

/-- 42_state_conversion.md (R132, the second half of which the spec marks derived): the conversions undo each other. -/
def Obligations.ConversionsAreMutualInverses : Prop :=
  (∀ x : Block, s2b (b2s x) = x) ∧ ∀ s : CState, b2s (s2b s) = s

/-! ### GF(2^4) and the round primitives (43_round_primitives.md) -/

/-- R141: 1 is neutral, 0 absorbs, and GFMul is commutative. -/
def Obligations.GfUnitZeroAndCommutativity : Prop :=
  ∀ a b : Nibble, gfMul 1#4 a = a ∧ gfMul 0#4 a = 0#4 ∧ gfMul a b = gfMul b a

/-- 43_round_primitives.md section 1 (R142, which the spec marks derived): GFMul is associative, distributes over XOR,
and each nonzero nibble has exactly the one inverse listed. -/
def Obligations.GfMultiplicationIsAField : Prop :=
  (∀ a b c : Nibble, gfMul (gfMul a b) c = gfMul a (gfMul b c)) ∧
  (∀ a b c : Nibble, gfMul a (b ^^^ c) = gfMul a b ^^^ gfMul a c) ∧
  (∀ a b : Nibble, gfMul a b = 1#4 ↔ (a, b) ∈ gfInverses)

/-- 43_round_primitives.md section 1 (R143, which the spec marks derived): the complete product table. -/
def Obligations.GfProductsAreTheTable : Prop :=
  ∀ a b : Nibble, (gfMul a b).toNat = (gfProducts.getD a.toNat []).getD b.toNat 0

/-- R145, R148, R150 and R151: AddRoundKey is the XOR position by position, ShiftRows exchanges positions 2 and 3, with
the corner cases and examples of both rules; AddRoundKey is commutative and self-inverse, ShiftRows self-inverse. -/
def Obligations.AddRoundKeyAndShiftRowsUndoThemselves : Prop :=
  (∀ a b : CState, ark a b = ⟨a.s0 ^^^ b.s0, a.s1 ^^^ b.s1, a.s2 ^^^ b.s2, a.s3 ^^^ b.s3⟩) ∧
  (∀ s : CState, sr s = ⟨s.s0, s.s1, s.s3, s.s2⟩) ∧
  (∀ s : CState, ark s ⟨0#4, 0#4, 0#4, 0#4⟩ = s ∧ ark s s = ⟨0#4, 0#4, 0#4, 0#4⟩) ∧
  (∀ s : CState, s.s2 = s.s3 → sr s = s) ∧
  ark ⟨0xC#4, 0xD#4, 0xC#4, 0x0#4⟩ ⟨0x3#4, 0x4#4, 0x2#4, 0x2#4⟩ = ⟨0xF#4, 0x9#4, 0xE#4, 0x2#4⟩ ∧
  sr ⟨0x1#4, 0x2#4, 0x3#4, 0x4#4⟩ = ⟨0x1#4, 0x2#4, 0x4#4, 0x3#4⟩ ∧
  (∀ a b : CState, ark a b = ark b a) ∧ (∀ s k : CState, ark (ark s k) k = s) ∧ (∀ s : CState, sr (sr s) = s)

/-- 43_round_primitives.md sections 2 and 3 (R146, R147, R149; in part marked derived): the four positions of MixColumns
and of InverseMixColumns in terms of GFMul with the constants 4, 9 and 2, and that the two undo each other. -/
def Obligations.MixColumnsAreMutualInverses : Prop :=
  ∀ s : CState,
    mc s = ⟨s.s0 ^^^ gfMul 4#4 s.s2, s.s1 ^^^ gfMul 4#4 s.s3, s.s2 ^^^ gfMul 4#4 s.s0, s.s3 ^^^ gfMul 4#4 s.s1⟩ ∧
    imc s = ⟨gfMul 9#4 s.s0 ^^^ gfMul 2#4 s.s2, gfMul 9#4 s.s1 ^^^ gfMul 2#4 s.s3,
             gfMul 9#4 s.s2 ^^^ gfMul 2#4 s.s0, gfMul 9#4 s.s3 ^^^ gfMul 2#4 s.s1⟩ ∧
    imc (mc s) = s ∧ mc (imc s) = s

/-- 43_round_primitives.md section 2 and 95_test_vectors.md section 3.5 (corner cases of R146 and R147, which the spec
marks derived): both mixings are linear over XOR, and their images of the four unit States. -/
def Obligations.MixColumnsAreLinear : Prop :=
  (∀ s t : CState, mc (ark s t) = ark (mc s) (mc t) ∧ imc (ark s t) = ark (imc s) (imc t)) ∧
  mc ⟨1#4, 0#4, 0#4, 0#4⟩ = ⟨1#4, 0#4, 4#4, 0#4⟩ ∧ imc ⟨1#4, 0#4, 0#4, 0#4⟩ = ⟨9#4, 0#4, 2#4, 0#4⟩ ∧
  mc ⟨0#4, 1#4, 0#4, 0#4⟩ = ⟨0#4, 1#4, 0#4, 4#4⟩ ∧ imc ⟨0#4, 1#4, 0#4, 0#4⟩ = ⟨0#4, 9#4, 0#4, 2#4⟩ ∧
  mc ⟨0#4, 0#4, 1#4, 0#4⟩ = ⟨4#4, 0#4, 1#4, 0#4⟩ ∧ imc ⟨0#4, 0#4, 1#4, 0#4⟩ = ⟨2#4, 0#4, 9#4, 0#4⟩ ∧
  mc ⟨0#4, 0#4, 0#4, 1#4⟩ = ⟨0#4, 4#4, 0#4, 1#4⟩ ∧ imc ⟨0#4, 0#4, 0#4, 1#4⟩ = ⟨0#4, 2#4, 0#4, 9#4⟩

/-! ### The cipher functions (44_cipher_commands.md section 1) -/

/-- 44_cipher_commands.md section 1 (the guarantee of R162), for every S-box and ANY three round keys, and so for those
of every master key: Decrypt undoes Encrypt. -/
def Obligations.DecryptUndoesEncrypt : Prop :=
  (∀ (t : SBox) (k0 k1 k2 : CState) (p : Block), decryptBlock t k0 k1 k2 (encryptBlock t k0 k1 k2 p) = p) ∧
  (∀ (t : SBox) (key p : Block), let k := keyExpansion t key
    decryptBlock t k.k0 k.k1 k.k2 (encryptBlock t k.k0 k.k1 k.k2 p) = p)

/-- 44_cipher_commands.md section 1 (the part of R162 the spec marks derived): Encrypt is a bijection on Blocks, and
Encrypt undoes Decrypt. -/
def Obligations.EncryptIsBijective : Prop :=
  ∀ (t : SBox) (k0 k1 k2 : CState), Function.Bijective (encryptBlock t k0 k1 k2) ∧
    ∀ c : Block, encryptBlock t k0 k1 k2 (decryptBlock t k0 k1 k2 c) = c

/-! ### The commands: completion, result and frame -/

/-- R167: a NOP accepted in `IDLE` writes nothing but `RSP_VALID <- 0`, so `fsm` stays `IDLE` and `RESULT` and
`KEY_VALID` stay; every value of `cmd_data` is the same NOP. -/
def Obligations.NopCompletes : Prop :=
  (∀ data : Block, decode (cmdWord 0b00#2 data) = .nop) ∧ encode .nop = 0x00000#18 ∧
  ∀ s : State, s.fsm = .idle → exec .nop s = .next { s with rspValid := false }

/-- KEYLOAD (41_key_expansion.md sections 2 and 3; R113, R117, R118): accepted in `IDLE` whether or not a key is
loaded, it writes W0 and W1 and clears KEY_VALID, and four edges without reset later the six words are those of
KeyExpansion, KEY_VALID is 1, and RESULT and ST are as before. -/
def Obligations.KeyloadCompletes : Prop :=
  ∀ (key : Block) (s : State), s.fsm = .idle → noResetFor 4 s = true →
    let w0 : Word := key.extractLsb' 8 8
    let w1 : Word := key.extractLsb' 0 8
    let w2 := w0 ^^^ subWord sbox (rotWord w1) ^^^ 0x80#8
    let w3 := w2 ^^^ w1
    let w4 := w2 ^^^ subWord sbox (rotWord w3) ^^^ 0x30#8
    let t : State :=
      { s with key := { s.key with w0 := w0, w1 := w1 }, keyValid := false, rspValid := false, fsm := .kxW2 }
    exec (.keyload key) s = .next t ∧
    run 4 t = .next { s with key := ⟨w0, w1, w2, w3, w4, w4 ^^^ w3⟩, keyValid := true, rspValid := false,
                             inputs := s.inputs.drop 4 }

/-- ENCRYPT (44_cipher_commands.md sections 1 and 3; R160, R163, R164): accepted in `IDLE` with a key loaded, it writes
ST, and four edges without reset later RESULT is the plaintext taken through the six steps of Encrypt under the loaded
key words, which is Encrypt of it, and RSP_VALID is 1; the key words and KEY_VALID are as before. -/
def Obligations.EncryptCompletes : Prop :=
  ∀ (p : Block) (s : State), s.fsm = .idle → s.keyValid = true → noResetFor 4 s = true →
    let st1 := ark s.key.k0 (b2s p)
    let st2 := mc (sr (subNib sbox.table st1))
    let st3 := ark s.key.k1 st2
    let st4 := sr (subNib sbox.table st3)
    let st5 := ark s.key.k2 st4
    let t : State := { s with st := st1, rspValid := false, fsm := .encS2 }
    encryptBlock sbox s.key.k0 s.key.k1 s.key.k2 p = s2b st5 ∧
    exec (.encrypt p) s = .next t ∧
    run 4 t = .next { s with st := st5, result := s2b st5, rspValid := true, inputs := s.inputs.drop 4 }

/-- DECRYPT (44_cipher_commands.md sections 1 and 3; R161, R165, R166): as ENCRYPT, with the six steps of Decrypt of the
ciphertext. -/
def Obligations.DecryptCompletes : Prop :=
  ∀ (c : Block) (s : State), s.fsm = .idle → s.keyValid = true → noResetFor 4 s = true →
    let st1 := ark s.key.k2 (b2s c)
    let st2 := subNib (sboxInverse sbox) (sr st1)
    let st3 := imc (ark s.key.k1 st2)
    let st4 := subNib (sboxInverse sbox) (sr st3)
    let st5 := ark s.key.k0 st4
    let t : State := { s with st := st1, rspValid := false, fsm := .decS2 }
    decryptBlock sbox s.key.k0 s.key.k1 s.key.k2 c = s2b st5 ∧
    exec (.decrypt c) s = .next t ∧
    run 4 t = .next { s with st := st5, result := s2b st5, rspValid := true, inputs := s.inputs.drop 4 }

/-- R168: an ENCRYPT or DECRYPT accepted with KEY_VALID = 0 writes nothing but `RSP_VALID <- 0`, `fsm` stays `IDLE`,
and no response follows, however long the host waits. -/
def Obligations.CipherWithoutKeyIsDropped : Prop :=
  ∀ (b : Block) (s : State), s.fsm = .idle → s.keyValid = false →
    let t : State := { s with rspValid := false }
    exec (.encrypt b) s = .next t ∧ exec (.decrypt b) s = .next t ∧
    ∀ n : Nat, ∃ u : State, run n (t.setInputs []) = .next u ∧ u.rspValid = false ∧ u.result = s.result

/-- 44_cipher_commands.md section 2 and 60_exceptions.md section 3 (R22, R204): out of `IDLE` no offered command has any
effect; the edge is the FSM's, the same as with no command offered. -/
def Obligations.BusyEngineTurnsCommandsAway : Prop :=
  ∀ (i : Instr) (s : State), s.fsm ≠ .idle → exec i s = step (s.setInputs (Pins.quiet :: s.inputs))

/-! ### The edges -/

/-- R170: the five rows of the dispatch table, at every accepting edge. -/
def Obligations.AcceptingEdgeDispatch : Prop :=
  ∀ s : State, accepts s = true →
    let op := s.pins.cmdOp
    let data := s.pins.cmdData
    let r : State := { s with rspValid := false, inputs := s.inputs.tail }
    (op = 0b00#2 → step s = .next r) ∧
    (op = 0b01#2 → step s = .next
      { r with key := { s.key with w0 := data.extractLsb' 8 8, w1 := data.extractLsb' 0 8 }, keyValid := false,
               fsm := .kxW2 }) ∧
    (op = 0b10#2 → s.keyValid = true → step s = .next { r with st := ark s.key.k0 (b2s data), fsm := .encS2 }) ∧
    (op = 0b11#2 → s.keyValid = true → step s = .next { r with st := ark s.key.k2 (b2s data), fsm := .decS2 }) ∧
    (op = 0b10#2 ∨ op = 0b11#2 → s.keyValid = false → step s = .next r)

/-- 41_key_expansion.md section 3 (the table of R118): one row per state, whatever stands on the command ports, with
`cmd_ready = 0`; a reset edge in these states is the reset instead. -/
def Obligations.KeyExpansionFsmRows : Prop :=
  ∀ s : State, s.fsm.isKx = true → cmdReady s = false ∧
    (s.pins.rst = true → step s = .next
      { s with fsm := .idle, keyValid := false, rspValid := false, result := 0#16, inputs := s.inputs.tail }) ∧
    (s.pins.rst = false →
      let r : State := { s with rspValid := false, inputs := s.inputs.tail }
      (s.fsm = .kxW2 → step s = .next { r with
        key := { s.key with w2 := s.key.w0 ^^^ subWord sbox (rotWord s.key.w1) ^^^ 0x80#8 }, fsm := .kxW3 }) ∧
      (s.fsm = .kxW3 → step s = .next { r with
        key := { s.key with w3 := s.key.w2 ^^^ s.key.w1 }, fsm := .kxW4 }) ∧
      (s.fsm = .kxW4 → step s = .next { r with
        key := { s.key with w4 := s.key.w2 ^^^ subWord sbox (rotWord s.key.w3) ^^^ 0x30#8 }, fsm := .kxW5 }) ∧
      (s.fsm = .kxW5 → step s = .next { r with
        key := { s.key with w5 := s.key.w4 ^^^ s.key.w3 }, keyValid := true, fsm := .idle }))

/-- 44_cipher_commands.md section 3 (the tables of R164 and R166): one row per state, whatever stands on the command
ports, with `cmd_ready = 0`; a reset edge in these states is the reset instead. -/
def Obligations.CipherFsmRows : Prop :=
  ∀ s : State, s.fsm.isCipher = true → cmdReady s = false ∧
    (s.pins.rst = true → step s = .next
      { s with fsm := .idle, keyValid := false, rspValid := false, result := 0#16, inputs := s.inputs.tail }) ∧
    (s.pins.rst = false →
      let r : State := { s with rspValid := false, inputs := s.inputs.tail }
      let e := ark s.key.k2 s.st
      let d := ark s.key.k0 s.st
      (s.fsm = .encS2 → step s = .next { r with st := mc (sr (subNib sbox.table s.st)), fsm := .encS3 }) ∧
      (s.fsm = .encS3 → step s = .next { r with st := ark s.key.k1 s.st, fsm := .encS4 }) ∧
      (s.fsm = .encS4 → step s = .next { r with st := sr (subNib sbox.table s.st), fsm := .encS5 }) ∧
      (s.fsm = .encS5 → step s = .next { r with st := e, result := s2b e, rspValid := true, fsm := .idle }) ∧
      (s.fsm = .decS2 → step s = .next { r with st := subNib (sboxInverse sbox) (sr s.st), fsm := .decS3 }) ∧
      (s.fsm = .decS3 → step s = .next { r with st := imc (ark s.key.k1 s.st), fsm := .decS4 }) ∧
      (s.fsm = .decS4 → step s = .next { r with st := subNib (sboxInverse sbox) (sr s.st), fsm := .decS5 }) ∧
      (s.fsm = .decS5 → step s = .next { r with st := d, result := s2b d, rspValid := true, fsm := .idle }))

/-- R169: the update of RSP_VALID at every rising edge; the pulse lasts one cycle, and RESULT keeps its value after
it. -/
def Obligations.ResponsePulseLastsOneCycle : Prop :=
  ∀ s t : State, step s = .next t →
    t.rspValid = (!s.pins.rst && (decide (s.fsm = .encS5) || decide (s.fsm = .decS5))) ∧
    (t.rspValid = true → t.result = s2b t.st ∧
      ∃ u : State, step t = .next u ∧ u.rspValid = false ∧ (t.pins.rst = false → u.result = t.result))

/-- R172: the `fsm` after every edge: the fixed path of each command, entered by the dispatch on `cmd_op` and
KEY_VALID alone and left early by reset alone. -/
def Obligations.CommandsFollowFixedPaths : Prop :=
  ∀ s t : State, step s = .next t →
    t.fsm =
      if s.pins.rst then .idle
      else if s.fsm = .idle then
        if s.pins.cmdValid then entryState s.keyValid (decode s.pins.word) else .idle
      else s.fsm.successor

/-- R173: whatever the key and the data, `cmd_ready` is 0 for exactly the four cycles after the acceptance of a KEYLOAD
and of an ENCRYPT or DECRYPT with a key loaded, and for none after a NOP or a dropped command. -/
def Obligations.BusyForExactlyFourCycles : Prop :=
  ∀ (i : Instr) (s : State), s.fsm = .idle → noResetFor 5 s = true →
    let busy : Nat := if i = .nop ∨ (i.opcode.getLsbD 1 = true ∧ s.keyValid = false) then 0 else 4
    ∃ t : State, exec i s = .next t ∧
      (∀ j, j < busy → ∃ u : State, run j t = .next u ∧ cmdReady u = false) ∧
      ∃ u : State, run busy t = .next u ∧ cmdReady u = true

/-- R22 and R23: a command is accepted if and only if `rst = 0`, `cmd_valid = 1` and `cmd_ready = 1`; what is accepted
is the pair on the ports, executed as decoded; otherwise `cmd_op` and `cmd_data` have no effect. `cmd_ready` is 1 exactly
in `IDLE` with `rst = 0`, so nothing is accepted in reset or while a command is in progress. -/
def Obligations.AcceptanceReadsThePorts : Prop :=
  ∀ s : State,
    (accepts s = true ↔ s.pins.rst = false ∧ s.pins.cmdValid = true ∧ cmdReady s = true) ∧
    (cmdReady s = true ↔ s.fsm = .idle ∧ s.pins.rst = false) ∧
    (s.pins.rst = true ∨ s.fsm ≠ .idle → accepts s = false) ∧
    (accepts s = true → step s = exec (decode (cmdWord s.pins.cmdOp s.pins.cmdData)) s.nextCycle) ∧
    (accepts s = false → ∀ (op : Opcode) (data : Block),
      step (s.withPins { s.pins with cmdOp := op, cmdData := data }) = step s)

/-- The model's step (log entry 3): with `rst = 0` and a command on the ports, it is exec of the decoded command on the
same registers, with the host moved to its next cycle; with no command, the FSM edge; with `rst = 1`, the reset edge. -/
def Obligations.StepRunsTheDecodedCommand : Prop :=
  ∀ s : State,
    (∀ i : Instr, s.pins.rst = false → s.pins.cmdValid = true → decode s.pins.word = i → i.wf = true →
      step s = exec i s.nextCycle) ∧
    (s.pins.rst = false → s.pins.cmdValid = false → step s = .next (fsmStep sbox (latchRspValid s.nextCycle))) ∧
    (s.pins.rst = true → step s = .next (resetEdge s.nextCycle))

/-- 10_state.md section 2, with the writers of every register as its table lists them (R24; R27 to R31, R33, R169, R231):
an edge changes W0 to W5, RESULT, ST, KEY_VALID and `fsm` only where one of their writers acts, sets RSP_VALID only after
the last edge of a cipher, and `rsp_data` is RESULT in every cycle. -/
def Obligations.RegistersChangeOnlyByTheirWriters : Prop :=
  ∀ s t : State, step s = .next t →
    (t.key ≠ s.key → s.pins.rst = false ∧ (s.fsm.isKx = true ∨ accepts s = true ∧ s.pins.cmdOp = 0b01#2)) ∧
    (t.result ≠ s.result → s.pins.rst = true ∨ s.fsm = .encS5 ∨ s.fsm = .decS5) ∧
    (s.pins.rst = true → t.result = 0x0000#16) ∧
    (t.st ≠ s.st → s.pins.rst = false ∧ (s.fsm.isCipher = true ∨
      accepts s = true ∧ s.keyValid = true ∧ (s.pins.cmdOp = 0b10#2 ∨ s.pins.cmdOp = 0b11#2))) ∧
    (t.keyValid ≠ s.keyValid → s.pins.rst = true ∨ s.fsm = .kxW5 ∨ accepts s = true ∧ s.pins.cmdOp = 0b01#2) ∧
    (t.rspValid = true → s.pins.rst = false ∧ (s.fsm = .encS5 ∨ s.fsm = .decS5)) ∧
    (t.fsm ≠ s.fsm → s.pins.rst = true ∨ s.fsm ≠ .idle ∨ accepts s = true ∧ s.pins.cmdOp ≠ 0b00#2) ∧
    (outputs s).rspData = s.result ∧ (outputs t).rspData = t.result

/-! ### Reset -/

/-- R231: at a rising edge with `rst = 1`, whatever the state, four registers take their reset values, `W0` to `W5` and
`ST` keep theirs, and no command is accepted. -/
def Obligations.ResetEdgeEffect : Prop :=
  ∀ s : State, s.pins.rst = true → accepts s = false ∧ step s = .next
    { s with fsm := .idle, keyValid := false, rspValid := false, result := 0x0000#16, inputs := s.inputs.tail }

/-- 70_reset_and_hazards.md section 1 (R233, which the spec marks derived): the outputs in the first cycle after reset,
at `State.reset` and after a reset edge from any state, when the host holds `rst = 0`. The values of W and ST at
`State.reset` are the model's choice (log entry 1) and no part of this. -/
def Obligations.OutputsAfterReset : Prop :=
  outputs State.reset = ⟨true, false, 0x0000#16, false⟩ ∧
  ∀ s t : State, s.pins.rst = true → step s = .next t → t.pins.rst = false →
    outputs t = ⟨true, false, 0x0000#16, false⟩

/-- 44_cipher_commands.md section 4 and 70_reset_and_hazards.md section 3 (R176, R232, R238; in part marked derived):
from `IDLE` without a key, as after any reset, no response comes and RESULT takes no value but 0 until a KEYLOAD is
offered, whatever else the host does. -/
def Obligations.NoResponseWithoutKeyload : Prop :=
  ∀ (s : State) (n : Nat), s.fsm = .idle → s.keyValid = false → neverLoads s = true →
    ∃ t : State, run (n + 1) s = .next t ∧ t.rspValid = false ∧ t.fsm = .idle ∧
      (t.result = s.result ∨ t.result = 0x0000#16)

/-! ### Whole-machine rules -/

/-- R200: no command, no operand and no sequence of commands and resets stops the engine or is refused. -/
def Obligations.NothingStopsTheEngine : Prop :=
  (∀ (i : Instr) (s : State), ∃ t : State, exec i s = .next t) ∧
  ∀ (n : Nat) (s : State), ∃ t : State, run n s = .next t

/-- 60_exceptions.md section 7 (R212, in part marked derived): without a reset, the engine is back in `IDLE` within four
edges, from any state and whatever the host offers. -/
def Obligations.BackInIdleWithinFourEdges : Prop :=
  ∀ s : State, noResetFor 4 s = true → ∃ (n : Nat) (t : State), n ≤ 4 ∧ run n s = .next t ∧ t.fsm = .idle

/-- The invariant holds at reset (10_state.md sections 2 and 4). -/
def Obligations.ConsistentAtReset : Prop := Consistent State.reset

/-- 10_state.md section 4 and 70_reset_and_hazards.md sections 1 and 2 (R40, R234, R236): a reset edge from ANY state,
that of power-up included, leaves the invariant true. -/
def Obligations.ResetMakesAnyStateConsistent : Prop :=
  ∀ s t : State, s.pins.rst = true → step s = .next t → Consistent t

/-- Every step keeps the invariant: KEY_VALID only with the six words of one key, the words a KEYLOAD has written so
far those of its key, a cipher in progress only with a key, a response only with its block in RESULT (10_state.md
section 2, 41_key_expansion.md section 3, 44_cipher_commands.md section 3). -/
def Obligations.StepKeepsConsistent : Prop :=
  ∀ s t : State, Consistent s → step s = .next t → Consistent t

/-- 20_memory.md section 3 (R59): in a consistent state the key words change only while KEY_VALID is 0 on one side of
the edge, and RESULT changes, in all its bits at once, only at a reset or at the edge that sets RSP_VALID. -/
def Obligations.NoTornKeyNorResult : Prop :=
  ∀ s t : State, Consistent s → step s = .next t →
    (t.key ≠ s.key → s.keyValid = false ∨ t.keyValid = false) ∧
    (t.result ≠ s.result → s.pins.rst = true ∨ t.rspValid = true ∧ t.result = s2b t.st)

/-- 10_state.md section 4 (R41, which the spec marks derived in part): the registers reset leaves unspecified are never
observed: after a reset, their values make no difference to any output in any cycle, whatever the host does. So no
statement rests on the values this model gives them (log entry 1). -/
def Obligations.UnwrittenRegistersAreUnobservable : Prop :=
  ∀ (s : State) (k : KeyWords) (c : CState) (n : Nat), s.fsm = .idle → s.keyValid = false →
    ∃ t u : State, run n s = .next t ∧ run n (s.withUnwritten k c) = .next u ∧ outputs t = outputs u

/-- 10_state.md section 3 and 60_exceptions.md section 5 (R38, R206): the key words show only through ENCRYPT and
DECRYPT: without those commands no output depends on them or on ST. -/
def Obligations.KeyWordsCannotBeReadBack : Prop :=
  ∀ (s : State) (k : KeyWords) (c : CState) (n : Nat), s.fsm.isCipher = false → neverCiphers s = true →
    ∃ t u : State, run n s = .next t ∧ run n (s.withUnwritten k c) = .next u ∧ outputs t = outputs u

/-! ### Cycle level and transaction level -/

/-- 44_cipher_commands.md section 4 and 00_scope.md section 5 (R175, R14): every command accepted in `IDLE`, run to
its end edge by edge without a reset, leaves exactly the state of the transaction-level semantics, whatever the host
offers meanwhile. That ST then holds the command's last State is the model's choice (log entry 5). -/
def Obligations.CommandRefinesTransaction : Prop :=
  ∀ (i : Instr) (s : State), s.fsm = .idle → noResetFor (busyTime i s) s = true →
    ∃ t : State, exec i s = .next t ∧
      run (busyTime i s) t = .next { transact sbox i s with inputs := s.inputs.drop (busyTime i s) }

/-- 00_scope.md section 3 (R5: "A model takes `SBOX` as an argument") and 44_cipher_commands.md section 4 (R175): the
machine runs with every S-box: its commands and steps at this hardware's S-box are exec and step, and for any bijection
every command accepted in `IDLE`, run to its end without a reset, has its whole effect under that S-box. That ST then
holds the command's last State is the model's choice (log entry 5). -/
def Obligations.EverySboxRunsOnTheMachine : Prop :=
  (∀ (i : Instr) (s : State), execWith sbox i s = exec i s) ∧ (∀ s : State, stepWith sbox s = step s) ∧
  ∀ (x : SBox) (i : Instr) (s : State), s.fsm = .idle → noResetFor (busyTime i s) s = true →
    ∃ t : State, execWith x i s = .next t ∧
      runWith x (busyTime i s) t = .next { transact x i s with inputs := s.inputs.drop (busyTime i s) }

/-- 20_memory.md section 5 (R62, with R175): any list of commands, each presented in a cycle of its own and given four
more, takes effect in order, each with its whole effect. -/
def Obligations.CommandSequencesRefineTransactions : Prop :=
  ∀ (cmds : List Instr) (s : State), s.fsm = .idle →
    run (5 * cmds.length) (s.setInputs (spacedInputs cmds)) = .next ((transactAll cmds s).setInputs [])

/-- 44_cipher_commands.md section 1 (R162) on the machine, edge by edge: from `IDLE`, KEYLOAD of any key, ENCRYPT of
any plaintext and DECRYPT of the result give the plaintext back with a response. -/
def Obligations.LoadEncryptDecryptGivesThePlaintext : Prop :=
  ∀ (key p : Block) (s : State), s.fsm = .idle →
    ∃ u v : State, run 10 (s.setInputs (spacedInputs [.keyload key, .encrypt p])) = .next u ∧
      u.rspValid = true ∧
      run 5 (u.setInputs (spacedInputs [.decrypt u.result])) = .next v ∧ v.rspValid = true ∧ v.result = p

/-! ### Power-up (70_reset_and_hazards.md section 1) -/

/-- 70_reset_and_hazards.md section 1 and 10_state.md section 4 (R234, R40, R231): before the first reset edge the
registers and the outputs of a cycle are free values, and a command offered then only passes by; a reset edge writes fsm,
KEY_VALID, RSP_VALID and RESULT and leaves W0 to W5 and ST at their free values; after it every edge is a step. That the
free values go by the host's port values is the model's choice (log entry 10). -/
def Obligations.UnresetEngineIsUnspecified : Prop :=
  (∀ seen inputs : List Pins,
    let p := inputs.headD Pins.quiet
    let v := Config.powerUpRegisters seen
    let c := Chip.unreset seen inputs
    c.registers = { v with inputs := inputs } ∧ c.outputs = Config.powerUpOutputs (p :: seen) ∧
    (p.rst = false → c.step = .next (.unreset (p :: seen) inputs.tail)) ∧
    (p.rst = true → c.step = .next (.running
      { v with fsm := .idle, keyValid := false, rspValid := false, result := 0x0000#16, inputs := inputs.tail }))) ∧
  ∀ s : State, (Chip.running s).outputs = outputs s ∧
    ∃ t : State, step s = .next t ∧ (Chip.running s).step = .next (.running t)

/-- 70_reset_and_hazards.md section 1 and 10_state.md section 4 (R230, R234, R40, R41): however long the host waits with
`rst = 0` after power-up and whatever it offers, the engine stays unspecified; its first reset edge makes it an engine
whose outputs are, in every later cycle, those of the engine that starts at `State.reset` with the same host. W0 to W5
and ST then hold what they held, so nothing rests on the values State.reset names for them (log entries 1, 4, 10). -/
def Obligations.FirstResetEndsPowerUp : Prop :=
  ∀ (before after : List Pins) (r : Pins), (∀ p ∈ before, p.rst = false) → r.rst = true →
    let boot := Chip.powerUp (before ++ r :: after)
    let v := Config.powerUpRegisters before.reverse
    let s : State := { State.reset with key := v.key, st := v.st, inputs := after }
    (∀ n ≤ before.length,
      Chip.run n boot = .next (.unreset (before.take n).reverse (before.drop n ++ r :: after))) ∧
    Chip.run (before.length + 1) boot = .next (.running s) ∧
    ∀ n : Nat, ∃ t u : State, Chip.run (before.length + 1 + n) boot = .next (.running t) ∧
      run n { State.reset with inputs := after } = .next u ∧ outputs t = outputs u

/-! ### The host's listing (30_encoding.md section 4) -/

/-- 30_encoding.md section 4 (R78): a command line assembles to its command and so to its CMD word. -/
def Obligations.AssemblerReadsEveryCommand : Prop :=
  ∀ i : Instr, assembleLine (sourceLine i) = .ok [.command i] ∧
    ∀ captured : Option Block, HostOp.word captured (.command i) = some (encode i)

/-- 30_encoding.md section 4 (R78): every text of the grammar of `imm16`, decimal, binary or hexadecimal, is read as the
number it stands for; a text that is read is the operand if its number is at most 65535 and out of range otherwise, and
one that is not read is a bad immediate; the lines that take one (KEYLOAD, ENCRYPT, DECRYPT, EXPECT) and ROUNDTRIP, which
takes two, are assembled with exactly these numbers or refused, never truncated. That the operands of EXPECT and ROUNDTRIP
are an `imm16` is the model's choice (log entry 7). -/
def Obligations.ImmediatesAreNeverTruncated : Prop :=
  (∀ (cs : List Char) (n : Nat), ImmText cs n → readImm cs = some n) ∧
  (∀ (cs : List Char) (n : Nat), readImm cs = some n →
    (n ≤ 65535 → ∃ v : Block, parseImm cs = .ok v ∧ v.toNat = n) ∧
    (65535 < n → parseImm cs = .error .immediateOutOfRange)) ∧
  (∀ cs : List Char, readImm cs = none → parseImm cs = .error .badImmediate) ∧
  (∀ (cs : List Char) (n : Nat), ImmText cs n → ∀ l ∈ immLines,
    (n ≤ 65535 → ∃ v : Block, v.toNat = n ∧ assembleLine (l.1 ++ ' ' :: cs) = .ok [l.2 v]) ∧
    (65535 < n → assembleLine (l.1 ++ ' ' :: cs) = .error .immediateOutOfRange)) ∧
  (∀ (ks ps : List Char) (k p : Nat), ImmText ks k → ImmText ps p →
    (k ≤ 65535 → p ≤ 65535 → ∃ v w : Block, v.toNat = k ∧ w.toNat = p ∧
      assembleLine (roundtripLine ks ps) = .ok (roundtrip v w)) ∧
    (65535 < k ∨ 65535 < p → assembleLine (roundtripLine ks ps) = .error .immediateOutOfRange))

/-- 30_encoding.md section 4 (R79): the directives assemble to no CMD word; WAITKEY and WAITRSP hold the listing,
offering nothing, until their output is 1, WAITRSP then captures `rsp_data`, and EXPECT compares the last capture. The
model's own (log entry 8): a satisfied directive takes no cycle (DEDUCED), EXPECT fails when nothing is captured, and the
listing goes on after a failed EXPECT (DESIGN CHOICE). -/
def Obligations.HostDirectivesWaitAndCapture : Prop :=
  ∀ (h : HostSys) (rest : List HostOp) (v : Block),
    (∀ cap : Option Block, HostOp.word cap .waitKey = none ∧ HostOp.word cap .waitRsp = none ∧
      HostOp.word cap (.expect v) = none) ∧
    (h.program = .waitKey :: rest → h.engine.keyValid = false →
      h.view = ⟨h.program, h.captured, h.failed⟩ ∧ h.view.offered = none) ∧
    (h.program = .waitKey :: rest → h.engine.keyValid = true → h.view = { h with program := rest }.view) ∧
    (h.program = .waitRsp :: rest → h.engine.rspValid = false →
      h.view = ⟨h.program, h.captured, h.failed⟩ ∧ h.view.offered = none) ∧
    (h.program = .waitRsp :: rest → h.engine.rspValid = true →
      h.view = { h with program := rest, captured := some h.engine.result }.view) ∧
    (h.program = .expect v :: rest →
      h.view = { h with program := rest, failed := h.failed || decide (h.captured ≠ some v) }.view)

/-- 30_encoding.md section 4 and 70_reset_and_hazards.md section 3 (R79, R237): the host presents the command at the
head of its listing; at an edge with `cmd_ready = 1` it is executed and dropped, at any other it stays and the engine
does what it does with no command. -/
def Obligations.HostHoldsACommandUntilAccepted : Prop :=
  ∀ (h : HostSys) (op : HostOp) (rest : List HostOp) (i : Instr), h.program = op :: rest →
    op.instr h.captured = some i →
    (cmdReady h.engine = true → ∃ t : State, h.step = .next ⟨t, rest, h.captured, h.failed⟩ ∧
      exec i h.engine.nextCycle = .next t) ∧
    (cmdReady h.engine = false → ∃ t : State, h.step = .next ⟨t, h.program, h.captured, h.failed⟩ ∧
      step (h.engine.withPins { Pins.quiet with rst := h.engine.pins.rst }) = .next t)

/-- 30_encoding.md section 4 (R80), 44_cipher_commands.md section 1 (R162) and 70_reset_and_hazards.md section 4 (R245):
`ROUNDTRIP k, p` expands to its six operations, and a host that runs them on an idle engine without a reset ends, in the
sixteenth cycle, with the plaintext captured. The count of sixteen also rests on the model's reading of when the host acts
(log entry 8). -/
def Obligations.RoundtripExpansionCapturesThePlaintext : Prop :=
  ∀ (k p : Block) (s : State) (captured : Option Block) (failed : Bool), s.fsm = .idle → s.inputs = [] →
    roundtrip k p = [.command (.keyload k), .waitKey, .command (.encrypt p), .waitRsp, .decryptResult, .waitRsp] ∧
    ∃ h : HostSys, HostSys.run 16 ⟨s, roundtrip k p, captured, failed⟩ = .next h ∧
      h.program = [] ∧ h.captured = some p ∧ h.failed = failed
end

