-- ==== Sys2Proof/Laws/Datapath.lean ====
section
/-! SUPPORT. The small laws of the datapath: joining words and nibbles is undone by splitting them, the word
functions act nibble by nibble, and the S-box parameter is injective. -/

namespace Sys2Proof.Machine

/-! ### Joining and splitting -/

theorem highNibble_joinNibbles (a b : Nibble) : highNibble (joinNibbles a b) = a := by
  ext i hi; simp only [highNibble, joinNibbles]; simp; interval_cases i <;> simp

theorem lowNibble_joinNibbles (a b : Nibble) : lowNibble (joinNibbles a b) = b := by
  ext i hi; simp only [lowNibble, joinNibbles]; simp; interval_cases i <;> simp

theorem joinNibbles_split (w : Word) : joinNibbles (highNibble w) (lowNibble w) = w := by
  ext i hi; simp only [joinNibbles, highNibble, lowNibble]; simp; interval_cases i <;> simp

theorem keyHigh_joinWords (a b : Word) : keyHigh (joinWords a b) = a := by
  ext i hi; simp only [keyHigh, joinWords]; simp; interval_cases i <;> simp

theorem keyLow_joinWords (a b : Word) : keyLow (joinWords a b) = b := by
  ext i hi; simp only [keyLow, joinWords]; simp; interval_cases i <;> simp

theorem joinWords_split (key : Block) : joinWords (keyHigh key) (keyLow key) = key := by
  ext i hi; simp only [joinWords, keyHigh, keyLow]; simp; interval_cases i <;> simp

theorem highNibble_xor (a b : Word) : highNibble (a ^^^ b) = highNibble a ^^^ highNibble b := by
  ext i hi; simp [highNibble]

theorem lowNibble_xor (a b : Word) : lowNibble (a ^^^ b) = lowNibble a ^^^ lowNibble b := by
  ext i hi; simp [lowNibble]

/-! ### The word functions by nibbles, and the S-box parameter -/

theorem rotWord_nibbles (w : Word) : highNibble (rotWord w) = lowNibble w ∧ lowNibble (rotWord w) = highNibble w :=
  ⟨highNibble_joinNibbles _ _, lowNibble_joinNibbles _ _⟩

theorem subWord_nibbles (t : SBox) (w : Word) :
    highNibble (subWord t w) = t.table (highNibble w) ∧ lowNibble (subWord t w) = t.table (lowNibble w) :=
  ⟨highNibble_joinNibbles _ _, lowNibble_joinNibbles _ _⟩

/-- Two words are equal if their nibbles are. -/
theorem word_ext {a b : Word} (hh : highNibble a = highNibble b) (hl : lowNibble a = lowNibble b) : a = b := by
  rw [← joinNibbles_split a, ← joinNibbles_split b, hh, hl]

/-- The S-box parameter is injective: what its check says. -/
theorem sbox_injective (t : SBox) {x y : Nibble} (h : t.table x = t.table y) : x = y :=
  of_decide_eq_true t.bijective x y h

/-- Every nibble is listed. -/
theorem mem_allNibbles (x : Nibble) : x ∈ allNibbles := by
  revert x; decide

end Sys2Proof.Machine
end

