-- ==== Sys2Proof/Laws/State.lean ====
section
/-! SUPPORT. One lemma per field per register write of Machine/Ops.lean, true by rfl, so that no later proof unfolds a
record update. -/

namespace Sys2Proof.Machine

variable (s : State)

/-! ### setKey -/

@[simp] theorem State.setKey_key (v : KeyWords) : (s.setKey v).key = v := rfl
@[simp] theorem State.setKey_keyValid (v : KeyWords) : (s.setKey v).keyValid = s.keyValid := rfl
@[simp] theorem State.setKey_st (v : KeyWords) : (s.setKey v).st = s.st := rfl
@[simp] theorem State.setKey_result (v : KeyWords) : (s.setKey v).result = s.result := rfl
@[simp] theorem State.setKey_rspValid (v : KeyWords) : (s.setKey v).rspValid = s.rspValid := rfl
@[simp] theorem State.setKey_fsm (v : KeyWords) : (s.setKey v).fsm = s.fsm := rfl
@[simp] theorem State.setKey_inputs (v : KeyWords) : (s.setKey v).inputs = s.inputs := rfl

/-! ### setKeyValid -/

@[simp] theorem State.setKeyValid_key (v : Bool) : (s.setKeyValid v).key = s.key := rfl
@[simp] theorem State.setKeyValid_keyValid (v : Bool) : (s.setKeyValid v).keyValid = v := rfl
@[simp] theorem State.setKeyValid_st (v : Bool) : (s.setKeyValid v).st = s.st := rfl
@[simp] theorem State.setKeyValid_result (v : Bool) : (s.setKeyValid v).result = s.result := rfl
@[simp] theorem State.setKeyValid_rspValid (v : Bool) : (s.setKeyValid v).rspValid = s.rspValid := rfl
@[simp] theorem State.setKeyValid_fsm (v : Bool) : (s.setKeyValid v).fsm = s.fsm := rfl
@[simp] theorem State.setKeyValid_inputs (v : Bool) : (s.setKeyValid v).inputs = s.inputs := rfl

/-! ### setSt -/

@[simp] theorem State.setSt_key (v : CState) : (s.setSt v).key = s.key := rfl
@[simp] theorem State.setSt_keyValid (v : CState) : (s.setSt v).keyValid = s.keyValid := rfl
@[simp] theorem State.setSt_st (v : CState) : (s.setSt v).st = v := rfl
@[simp] theorem State.setSt_result (v : CState) : (s.setSt v).result = s.result := rfl
@[simp] theorem State.setSt_rspValid (v : CState) : (s.setSt v).rspValid = s.rspValid := rfl
@[simp] theorem State.setSt_fsm (v : CState) : (s.setSt v).fsm = s.fsm := rfl
@[simp] theorem State.setSt_inputs (v : CState) : (s.setSt v).inputs = s.inputs := rfl

/-! ### setResult -/

@[simp] theorem State.setResult_key (v : Block) : (s.setResult v).key = s.key := rfl
@[simp] theorem State.setResult_keyValid (v : Block) : (s.setResult v).keyValid = s.keyValid := rfl
@[simp] theorem State.setResult_st (v : Block) : (s.setResult v).st = s.st := rfl
@[simp] theorem State.setResult_result (v : Block) : (s.setResult v).result = v := rfl
@[simp] theorem State.setResult_rspValid (v : Block) : (s.setResult v).rspValid = s.rspValid := rfl
@[simp] theorem State.setResult_fsm (v : Block) : (s.setResult v).fsm = s.fsm := rfl
@[simp] theorem State.setResult_inputs (v : Block) : (s.setResult v).inputs = s.inputs := rfl

/-! ### setRspValid -/

@[simp] theorem State.setRspValid_key (v : Bool) : (s.setRspValid v).key = s.key := rfl
@[simp] theorem State.setRspValid_keyValid (v : Bool) : (s.setRspValid v).keyValid = s.keyValid := rfl
@[simp] theorem State.setRspValid_st (v : Bool) : (s.setRspValid v).st = s.st := rfl
@[simp] theorem State.setRspValid_result (v : Bool) : (s.setRspValid v).result = s.result := rfl
@[simp] theorem State.setRspValid_rspValid (v : Bool) : (s.setRspValid v).rspValid = v := rfl
@[simp] theorem State.setRspValid_fsm (v : Bool) : (s.setRspValid v).fsm = s.fsm := rfl
@[simp] theorem State.setRspValid_inputs (v : Bool) : (s.setRspValid v).inputs = s.inputs := rfl

/-! ### setFsm -/

@[simp] theorem State.setFsm_key (v : Fsm) : (s.setFsm v).key = s.key := rfl
@[simp] theorem State.setFsm_keyValid (v : Fsm) : (s.setFsm v).keyValid = s.keyValid := rfl
@[simp] theorem State.setFsm_st (v : Fsm) : (s.setFsm v).st = s.st := rfl
@[simp] theorem State.setFsm_result (v : Fsm) : (s.setFsm v).result = s.result := rfl
@[simp] theorem State.setFsm_rspValid (v : Fsm) : (s.setFsm v).rspValid = s.rspValid := rfl
@[simp] theorem State.setFsm_fsm (v : Fsm) : (s.setFsm v).fsm = v := rfl
@[simp] theorem State.setFsm_inputs (v : Fsm) : (s.setFsm v).inputs = s.inputs := rfl

/-! ### setInputs -/

@[simp] theorem State.setInputs_key (v : List Pins) : (s.setInputs v).key = s.key := rfl
@[simp] theorem State.setInputs_keyValid (v : List Pins) : (s.setInputs v).keyValid = s.keyValid := rfl
@[simp] theorem State.setInputs_st (v : List Pins) : (s.setInputs v).st = s.st := rfl
@[simp] theorem State.setInputs_result (v : List Pins) : (s.setInputs v).result = s.result := rfl
@[simp] theorem State.setInputs_rspValid (v : List Pins) : (s.setInputs v).rspValid = s.rspValid := rfl
@[simp] theorem State.setInputs_fsm (v : List Pins) : (s.setInputs v).fsm = s.fsm := rfl
@[simp] theorem State.setInputs_inputs (v : List Pins) : (s.setInputs v).inputs = v := rfl

/-! ### State.nextCycle -/

@[simp] theorem State.nextCycle_key : (s.nextCycle).key = s.key := rfl
@[simp] theorem State.nextCycle_keyValid : (s.nextCycle).keyValid = s.keyValid := rfl
@[simp] theorem State.nextCycle_st : (s.nextCycle).st = s.st := rfl
@[simp] theorem State.nextCycle_result : (s.nextCycle).result = s.result := rfl
@[simp] theorem State.nextCycle_rspValid : (s.nextCycle).rspValid = s.rspValid := rfl
@[simp] theorem State.nextCycle_fsm : (s.nextCycle).fsm = s.fsm := rfl
@[simp] theorem State.nextCycle_inputs : (s.nextCycle).inputs = s.inputs.tail := rfl

/-! ### State.withPins -/

@[simp] theorem State.withPins_key (p : Pins) : (s.withPins p).key = s.key := rfl
@[simp] theorem State.withPins_keyValid (p : Pins) : (s.withPins p).keyValid = s.keyValid := rfl
@[simp] theorem State.withPins_st (p : Pins) : (s.withPins p).st = s.st := rfl
@[simp] theorem State.withPins_result (p : Pins) : (s.withPins p).result = s.result := rfl
@[simp] theorem State.withPins_rspValid (p : Pins) : (s.withPins p).rspValid = s.rspValid := rfl
@[simp] theorem State.withPins_fsm (p : Pins) : (s.withPins p).fsm = s.fsm := rfl
@[simp] theorem State.withPins_inputs (p : Pins) : (s.withPins p).inputs = p :: s.inputs.tail := rfl
@[simp] theorem State.withPins_pins (p : Pins) : (s.withPins p).pins = p := rfl
@[simp] theorem State.withPins_nextCycle (p : Pins) : (s.withPins p).nextCycle = s.nextCycle := rfl

/-! ### latchRspValid -/

@[simp] theorem latchRspValid_key : (latchRspValid s).key = s.key := rfl
@[simp] theorem latchRspValid_keyValid : (latchRspValid s).keyValid = s.keyValid := rfl
@[simp] theorem latchRspValid_st : (latchRspValid s).st = s.st := rfl
@[simp] theorem latchRspValid_result : (latchRspValid s).result = s.result := rfl
@[simp] theorem latchRspValid_rspValid : (latchRspValid s).rspValid = rspValidNext false s.fsm := rfl
@[simp] theorem latchRspValid_fsm : (latchRspValid s).fsm = s.fsm := rfl
@[simp] theorem latchRspValid_inputs : (latchRspValid s).inputs = s.inputs := rfl

/-! ### resetEdge -/

@[simp] theorem resetEdge_key : (resetEdge s).key = s.key := rfl
@[simp] theorem resetEdge_keyValid : (resetEdge s).keyValid = false := rfl
@[simp] theorem resetEdge_st : (resetEdge s).st = s.st := rfl
@[simp] theorem resetEdge_result : (resetEdge s).result = 0x0000#16 := rfl
@[simp] theorem resetEdge_rspValid : (resetEdge s).rspValid = false := rfl
@[simp] theorem resetEdge_fsm : (resetEdge s).fsm = .idle := rfl
@[simp] theorem resetEdge_inputs : (resetEdge s).inputs = s.inputs := rfl

end Sys2Proof.Machine
end

