-- ==== Sys2Proof/Laws/Engine.lean ====
section
/-! SUPPORT. What each shared operation can do, said once: the FSM edge per state, the offered edge in and out of
`IDLE`, exec, one step, and a run of steps. Later proofs cite these instead of unfolding the operations. -/

namespace Sys2Proof.Machine

/-! ### The FSM edge -/

section
variable {s : State} (t : SBox)

theorem fsmStep_idle (h : s.fsm = .idle) : fsmStep t s = s := by simp [fsmStep, h]
theorem fsmStep_kxW2 (h : s.fsm = .kxW2) : fsmStep t s = edgeKxW2 t s := by simp [fsmStep, h]
theorem fsmStep_kxW3 (h : s.fsm = .kxW3) : fsmStep t s = edgeKxW3 s := by simp [fsmStep, h]
theorem fsmStep_kxW4 (h : s.fsm = .kxW4) : fsmStep t s = edgeKxW4 t s := by simp [fsmStep, h]
theorem fsmStep_kxW5 (h : s.fsm = .kxW5) : fsmStep t s = edgeKxW5 s := by simp [fsmStep, h]
theorem fsmStep_encS2 (h : s.fsm = .encS2) : fsmStep t s = edgeEncS2 t s := by simp [fsmStep, h]
theorem fsmStep_encS3 (h : s.fsm = .encS3) : fsmStep t s = edgeEncS3 s := by simp [fsmStep, h]
theorem fsmStep_encS4 (h : s.fsm = .encS4) : fsmStep t s = edgeEncS4 t s := by simp [fsmStep, h]
theorem fsmStep_encS5 (h : s.fsm = .encS5) : fsmStep t s = edgeEncS5 s := by simp [fsmStep, h]
theorem fsmStep_decS2 (h : s.fsm = .decS2) : fsmStep t s = edgeDecS2 t s := by simp [fsmStep, h]
theorem fsmStep_decS3 (h : s.fsm = .decS3) : fsmStep t s = edgeDecS3 s := by simp [fsmStep, h]
theorem fsmStep_decS4 (h : s.fsm = .decS4) : fsmStep t s = edgeDecS4 t s := by simp [fsmStep, h]
theorem fsmStep_decS5 (h : s.fsm = .decS5) : fsmStep t s = edgeDecS5 s := by simp [fsmStep, h]

end

/-- The FSM edge never touches `RSP_VALID`: that write is R169's alone. -/
theorem fsmStep_rspValid (t : SBox) (s : State) : (fsmStep t s).rspValid = s.rspValid := by
  unfold fsmStep; split <;> rfl

/-- The FSM edge leaves the host's coming port values alone. -/
theorem fsmStep_inputs (t : SBox) (s : State) : (fsmStep t s).inputs = s.inputs := by
  unfold fsmStep; split <;> rfl

/-! ### Edges with `rst = 0` -/

/-- In `IDLE` an offered command is accepted (R22). -/
theorem offeredEdge_idle (t : SBox) (accept : State → State) {s : State} (h : s.fsm = .idle) :
    offeredEdge t accept s = accept (latchRspValid s) := if_pos h

/-- Out of `IDLE` an offered command is turned away and the edge is a quiet one (R204). -/
theorem offeredEdge_busy (t : SBox) (accept : State → State) {s : State} (h : s.fsm ≠ .idle) :
    offeredEdge t accept s = quietEdge t s := if_neg h

/-! ### The writes of a command at its accepting edge, and exec -/

/-- The row of R170 of a command. -/
def acceptCommand : Instr → State → State
  | .nop => id
  | .keyload key => acceptKeyload key
  | .encrypt p => acceptEncrypt p
  | .decrypt c => acceptDecrypt c

/-- Everything a command can do, on an engine with any S-box. -/
theorem execWith_eq (t : SBox) (i : Instr) (s : State) :
    execWith t i s = .next (offeredEdge t (acceptCommand i) s) := by
  cases i <;> rfl

/-- Everything exec can do. -/
theorem exec_eq (i : Instr) (s : State) : exec i s = .next (offeredEdge sbox (acceptCommand i) s) := by
  cases i <;> rfl

/-! ### One step -/

/-- The state a step answers on an engine with the S-box `t`, by the port values of the cycle (R204). -/
def edgeWith (t : SBox) (s : State) : State :=
  if s.pins.rst then resetEdge s.nextCycle
  else if s.pins.cmdValid then offeredEdge t (acceptCommand (decode s.pins.word)) s.nextCycle
  else quietEdge t s.nextCycle

/-- Everything a step of this hardware can do. -/
abbrev edge (s : State) : State := edgeWith sbox s

/-- A step whose commands are accepted by their rows of R170 answers the state of `edgeWith`. -/
theorem stepBy_eq (t : SBox) {run : Instr → State → Host.Outcome State Fault Refusal}
    (h : ∀ i s, run i s = .next (offeredEdge t (acceptCommand i) s)) (s : State) :
    stepBy t run s = .next (edgeWith t s) := by
  unfold stepBy edgeWith
  split
  · rfl
  · split
    · exact h _ _
    · rfl

theorem stepWith_eq (t : SBox) (s : State) : stepWith t s = .next (edgeWith t s) := stepBy_eq t (execWith_eq t) s

/-- A step is a next state, that of `edge`. -/
theorem step_eq (s : State) : step s = .next (edge s) := stepBy_eq sbox exec_eq s

/-- The inversion of a step: a reset edge, an acceptance, or an edge that accepts nothing. -/
theorem step_cases {s t : State} (h : step s = .next t) :
    (s.pins.rst = true ∧ t = resetEdge s.nextCycle) ∨
    (s.pins.rst = false ∧ s.pins.cmdValid = true ∧ s.fsm = .idle ∧
      t = acceptCommand (decode s.pins.word) (latchRspValid s.nextCycle)) ∨
    (s.pins.rst = false ∧ (s.pins.cmdValid = true → s.fsm ≠ .idle) ∧ t = quietEdge sbox s.nextCycle) := by
  rw [step_eq] at h
  obtain rfl : edge s = t := by injection h
  unfold edge edgeWith
  split
  case isTrue hr => exact .inl ⟨hr, rfl⟩
  case isFalse hr =>
    simp only [Bool.not_eq_true] at hr
    split
    case isTrue hv =>
      by_cases hf : s.fsm = .idle
      · exact .inr (.inl ⟨hr, hv, hf, offeredEdge_idle _ _ hf⟩)
      · exact .inr (.inr ⟨hr, fun _ => hf, offeredEdge_busy _ _ hf⟩)
    case isFalse hv => exact .inr (.inr ⟨hr, fun h => absurd h hv, rfl⟩)

/-! ### Runs -/

@[simp] theorem run_zero (s : State) : run 0 s = .next s := rfl

/-- A run begins with one edge. -/
theorem run_succ (n : Nat) (s : State) : run (n + 1) s = run n (edge s) := by simp [run, step_eq]

/-- A run with any S-box begins with one edge. -/
theorem runWith_succ (t : SBox) (n : Nat) (s : State) : runWith t (n + 1) s = runWith t n (edgeWith t s) := by
  simp [runWith, stepWith_eq]

/-- A run may be cut anywhere. -/
theorem run_add (m n : Nat) (s t : State) (h : run m s = .next t) : run (m + n) s = run n t := by
  induction m generalizing s with
  | zero => injection h with h; subst h; simp
  | succ m ih => rw [run_succ] at h; rw [Nat.add_right_comm, run_succ]; exact ih _ h

/-- The run of the statements is the run of the host's interface. -/
theorem run_eq_core_run (n : Nat) (s : State) : Host.Core.run Sys2Proof.core n s = run n s := by
  induction n generalizing s with
  | zero => rfl
  | succ n ih =>
    have h : Sys2Proof.core.step s = .next (edge s) := step_eq s
    rw [run_succ, ← ih]
    simp only [Host.Core.run, h]

end Sys2Proof.Machine
end

