-- ==== Sys2Proof/Laws/PerInstr.lean ====
section
/-! SUPPORT. The statements made per instruction: the fields of each command's word are those of the opcode map (R70,
R72), and the word lies in the command's row of the opcode table. -/

namespace Sys2Proof.Laws.EncodeFields

/-- The word of a well-formed command carries its opcode on `cmd_op` and its operand on `cmd_data`, and belongs to its
row of the opcode table. -/
def Statement (i : Instr) : Prop :=
  i.wf = true → opField (encode i) = i.opcode ∧ dataField (encode i) = i.operand ∧ i.row.covers (encode i) = true

/-- A word whose data field is zero has no bit below bit 16. -/
theorem low_bits_false {word : CmdWord} (h : dataField word = 0#16) {i : Nat} (hi : i < 16) :
    word.getLsbD i = false := by
  have := congrArg (fun b => b.getLsbD i) h
  simp only [dataField, BitVec.getLsbD_extractLsb', hi] at this
  simpa using this

/-- A word with an opcode above and a 16-bit operand below has that opcode and that operand in its fields. -/
theorem fields_of_or (word : CmdWord) (data : Block) (h : dataField word = 0#16) :
    opField (word ||| data.setWidth 18) = opField word ∧ dataField (word ||| data.setWidth 18) = data := by
  constructor
  · ext i hi
    simp [opField]
  · apply BitVec.eq_of_getLsbD_eq
    intro i hi
    simp only [dataField, BitVec.getLsbD_extractLsb', BitVec.getLsbD_or, BitVec.getLsbD_setWidth, Nat.zero_add,
      low_bits_false h hi, hi, show i < 18 by omega, decide_true, Bool.true_and, Bool.false_or]

/-- A word lies in a row that masks bits 17:16 if its opcode is the row's. -/
theorem covers_of_opField (cmd pattern : CmdWord) (hp : dataField pattern = 0#16)
    (h : opField cmd = opField pattern) : OpcodeRow.covers ⟨0x30000#18, pattern⟩ cmd = true := by
  have h0 := congrArg (fun b => b.getLsbD 0) h
  have h1 := congrArg (fun b => b.getLsbD 1) h
  simp only [opField, BitVec.getLsbD_extractLsb'] at h0 h1
  simp only [OpcodeRow.covers, beq_iff_eq]
  apply BitVec.eq_of_getLsbD_eq
  intro i hi
  have hm : ∀ i : Fin 18, (0x30000#18).getLsbD i = decide (16 ≤ (i : Nat)) := by decide
  rw [BitVec.getLsbD_and, hm ⟨i, hi⟩]
  by_cases hlow : i < 16
  · simp [low_bits_false hp hlow, show ¬ 16 ≤ i by omega]
  · obtain rfl | rfl : i = 16 ∨ i = 17 := by omega
    · simpa using h0
    · simpa using h1

theorem nop : Statement .nop := fun _ => by decide

theorem keyload (key : Block) : Statement (.keyload key) := fun _ =>
  have h := fields_of_or 0x10000#18 key (by decide)
  ⟨h.1, h.2, covers_of_opField _ 0x10000#18 (by decide) h.1⟩

theorem encrypt (block : Block) : Statement (.encrypt block) := fun _ =>
  have h := fields_of_or 0x20000#18 block (by decide)
  ⟨h.1, h.2, covers_of_opField _ 0x20000#18 (by decide) h.1⟩

theorem decrypt (block : Block) : Statement (.decrypt block) := fun _ =>
  have h := fields_of_or 0x30000#18 block (by decide)
  ⟨h.1, h.2, covers_of_opField _ 0x30000#18 (by decide) h.1⟩

end Sys2Proof.Laws.EncodeFields
end

