-- ==== Sys2Proof/Laws/PowerUp.lean ====
section
/-! SUPPORT. What an edge of the powered-up engine can do, before and after its first reset, said once. -/

namespace Sys2Proof.Machine

@[simp] theorem Chip.registers_running (s : State) : (Chip.running s).registers = s := rfl
@[simp] theorem Chip.outputs_running (s : State) : (Chip.running s).outputs = Machine.outputs s := rfl

/-- The ports of an unreset engine are the host's, whatever its registers hold. -/
@[simp] theorem Chip.registers_unreset_pins (seen inputs : List Pins) :
    (Chip.unreset seen inputs).registers.pins = inputs.headD Pins.quiet := rfl

/-- A cycle without reset leaves the engine unreset (R234). -/
theorem Chip.step_unreset (seen : List Pins) {inputs : List Pins} (h : (inputs.headD Pins.quiet).rst = false) :
    (Chip.unreset seen inputs).step = .next (.unreset (inputs.headD Pins.quiet :: seen) inputs.tail) := by
  simp only [Chip.step, Chip.registers_unreset_pins, h]; rfl

/-- The first reset edge (R231, R234). -/
theorem Chip.step_reset (seen : List Pins) {inputs : List Pins} (h : (inputs.headD Pins.quiet).rst = true) :
    (Chip.unreset seen inputs).step =
      .next (.running (resetEdge ((Config.powerUpRegisters seen).setInputs inputs.tail))) := by
  simp only [Chip.step, Chip.registers_unreset_pins, h]; rfl

/-- After the first reset edge an edge is a step. -/
theorem Chip.step_running (s : State) : (Chip.running s).step = .next (.running (edge s)) := by
  simp only [Chip.step, step_eq]

/-- A run from power-up on may be cut anywhere. -/
theorem Chip.run_add (m n : Nat) {c d : Chip} (h : Chip.run m c = .next d) : Chip.run (m + n) c = Chip.run n d := by
  induction m generalizing c with
  | zero => injection h with h; subst h; simp
  | succ m ih =>
    rw [Nat.add_right_comm]
    simp only [Chip.run] at h ⊢
    split at h <;> simp_all

/-- After the first reset edge a run is a run of steps. -/
theorem Chip.run_running (n : Nat) {s t : State} (h : Machine.run n s = .next t) :
    Chip.run n (.running s) = .next (.running t) := by
  induction n generalizing s with
  | zero => injection h with h; subst h; rfl
  | succ n ih => rw [run_succ] at h; rw [Chip.run, Chip.step_running]; exact ih h

end Sys2Proof.Machine
end

