-- ==== Sys2Proof/Laws/Runs.lean ====
section
/-! SUPPORT. The kinds of edge as equations, and the cycles without reset a run goes through. -/

namespace Sys2Proof.Machine

variable (t : SBox)

/-- A reset edge (R231). -/
theorem edge_reset {s : State} (h : s.pins.rst = true) : edgeWith t s = resetEdge s.nextCycle := by
  unfold edgeWith; exact if_pos h

/-- An edge in a busy state without reset: the FSM step, whatever stands on the command ports (R204, R243). -/
theorem edge_busy {s : State} (hr : s.pins.rst = false) (hf : s.fsm ≠ .idle) :
    edgeWith t s = fsmStep t (latchRspValid s.nextCycle) := by
  unfold edgeWith
  rw [if_neg (by simp [hr])]
  split
  · exact offeredEdge_busy _ _ hf
  · rfl

/-- An accepting edge (R22, R170). -/
theorem edge_accept {s : State} (hr : s.pins.rst = false) (hv : s.pins.cmdValid = true) (hf : s.fsm = .idle) :
    edgeWith t s = acceptCommand (decode s.pins.word) (latchRspValid s.nextCycle) := by
  unfold edgeWith
  rw [if_neg (by simp [hr]), if_pos hv]
  exact offeredEdge_idle _ _ hf

/-- An edge in `IDLE` with no command: only R169's write. -/
theorem edge_idle_quiet {s : State} (hr : s.pins.rst = false) (hv : s.pins.cmdValid = false) (hf : s.fsm = .idle) :
    edgeWith t s = latchRspValid s.nextCycle := by
  unfold edgeWith
  rw [if_neg (by simp [hr]), if_neg (by simp [hv])]
  exact fsmStep_idle t hf

/-- With nothing more listed, the host is quiet. -/
theorem pins_of_inputs_nil {s : State} (h : s.inputs = []) : s.pins = Pins.quiet := by simp [State.pins, h]

/-- The first of the listed port values is this cycle's. -/
theorem pins_of_inputs_cons {s : State} {p : Pins} {l : List Pins} (h : s.inputs = p :: l) : s.pins = p := by
  simp [State.pins, h]

/-- Cycles without reset, one at a time. -/
theorem noResetFor_succ {n : Nat} {s : State} (h : noResetFor (n + 1) s = true) :
    s.pins.rst = false ∧ noResetFor n s.nextCycle = true := by
  unfold noResetFor State.pins State.nextCycle State.setInputs at *
  cases hl : s.inputs with
  | nil => simp [Pins.quiet]
  | cons p l => simpa [hl] using h

/-- Whether the host resets depends on its port values only. -/
theorem noResetFor_congr {n : Nat} {s t : State} (h : t.inputs = s.inputs) : noResetFor n t = noResetFor n s := by
  simp [noResetFor, h]

end Sys2Proof.Machine
end

