-- ==== Sys2Proof/Tests/Slice0.lean ====
section
/-! SUPPORT. Tests of single steps, expected values from spec/95_test_vectors.md and 70_reset_and_hazards.md R246, and
the witnesses: for every statement with hypotheses, states and operands that meet them together. -/

namespace Sys2Proof.Tests
open Sys2Proof Sys2Proof.Machine

/-! ### Small states -/

/-- The registers after `KEYLOAD 0x3242` has completed (R246, the cycle after edge 5). -/
def keyed : State :=
  { State.reset with key := ⟨0x32#8, 0x42#8, 0x1F#8, 0x5D#8, 0xCE#8, 0x93#8⟩, keyValid := true }

/-- `keyed` in the FSM state `f` with the cipher State `c`. -/
def busy (f : Fsm) (c : CState) : State := (keyed.setFsm f).setSt c

/-- A KEYLOAD of 0x3242 in the FSM state `f`: the words after edge 4 of R246, no key valid. -/
def loading (f : Fsm) : State :=
  ((State.reset.setKey ⟨0x32#8, 0x42#8, 0x1F#8, 0x5D#8, 0xCE#8, 0x00#8⟩)).setFsm f

/-- `s` with the word `w` offered in this cycle. -/
def offering (w : CmdWord) (s : State) : State := s.withPins (Pins.offer w)

/-- `s` with a reset in this cycle. -/
def resetting (s : State) : State := s.withPins Pins.reset

/-- The state an outcome answers. -/
def stateOf (o : Host.Outcome State Fault Refusal) : Option State :=
  match o with
  | .next s => some s
  | .fault _ => none
  | .refused _ => none

/-! ### WellFormed: an ill-formed term for each check -/

theorem test_too_wide_is_no_cmd_word : isCmdWord 0x40000 = false ∧ isCmdWord 0x3FFFF = true := by decide
theorem test_immediate_range : isImm16 65536 = false ∧ isImm16 65535 = true := by decide
theorem test_constant_table_is_no_sbox : isBijection (fun _ => 0x9#4) = false := by decide
theorem test_instr_wf : Instr.nop.wf = true ∧ (Instr.keyload 0xFFFF#16).wf = true := by decide

/-! ### Decoding: words written out from R70 and R72 (95_test_vectors.md section 4) -/

theorem test_decode_nop : decode 0b00_1111111111111111#18 = .nop := by decide
theorem test_decode_keyload : decode 0b01_0011001001000010#18 = .keyload 0x3242#16 := by decide
theorem test_decode_encrypt : decode 0b10_1100110011010000#18 = .encrypt 0xCCD0#16 := by decide
theorem test_decode_decrypt : decode 0b11_1010111001100011#18 = .decrypt 0xAE63#16 := by decide
theorem test_encode_decrypt : encode (.decrypt 0xAE63#16) = 0x3AE63#18 := by decide
theorem test_decode_table_word :
    decodeTableWord 24 0x13242 = some (.keyload 0x3242#16) ∧ decodeTableWord 24 0x40000 = none := by decide
theorem test_decode_raw_rejects : decodeRaw 0x40000 = .error .notACmdWord := rfl

/-! ### The datapath (95_test_vectors.md sections 1 and 3) -/

theorem test_sboxi : allNibbles.map (sboxInverse sbox) = sboxiEntries := by decide
theorem test_subNib : subNib sbox.table ⟨0x1#4, 0x2#4, 0x3#4, 0x4#4⟩ = ⟨0x4#4, 0xA#4, 0xB#4, 0xD#4⟩ := by decide
theorem test_subWord_rotWord : subWord sbox (rotWord 0x28#8) = 0x6A#8 ∧ subWord sbox 0x28#8 = 0xA6#8 := by decide
theorem test_keyExpansion :
    keyExpansion sbox 0x00FF#16 = ⟨0x00#8, 0xFF#8, 0xF7#8, 0x08#8, 0xAE#8, 0xA6#8⟩ := by decide
theorem test_roundKey_views :
    keyed.key.k0 = ⟨0x3#4, 0x4#4, 0x2#4, 0x2#4⟩ ∧ keyed.key.k1 = ⟨0x1#4, 0x5#4, 0xF#4, 0xD#4⟩ ∧
    keyed.key.k2 = ⟨0xC#4, 0x9#4, 0xE#4, 0x3#4⟩ := by decide
theorem test_b2s_interleaves : b2s 0xABCD#16 = ⟨0xA#4, 0xC#4, 0xB#4, 0xD#4⟩ := by decide
theorem test_s2b_interleaves : s2b ⟨0x0#4, 0xF#4, 0x0#4, 0x0#4⟩ = 0x00F0#16 := by decide
theorem test_gfMul_reduces : gfMul 0x8#4 0x2#4 = 0x3#4 ∧ gfMul 0xB#4 0x7#4 = 0x4#4 := by decide
theorem test_mc : mc ⟨0xC#4, 0xD#4, 0x6#4, 0x3#4⟩ = ⟨0x7#4, 0x1#4, 0x3#4, 0x2#4⟩ := by decide
theorem test_imc : imc ⟨0xC#4, 0xD#4, 0x6#4, 0x3#4⟩ = ⟨0xA#4, 0x9#4, 0x8#4, 0x1#4⟩ := by decide
theorem test_encrypt_published : let k := keyExpansion sbox 0xA73B#16
    encryptBlock sbox k.k0 k.k1 k.k2 0x6F6B#16 = 0x0738#16 := by decide
theorem test_decrypt_other_key : let k := keyExpansion sbox 0x4AF5#16
    decryptBlock sbox k.k0 k.k1 k.k2 0x0738#16 = 0x2D84#16 := by decide

/-! ### Single steps (70_reset_and_hazards.md R246) -/

theorem test_step_nop_clears_rspValid :
    (stateOf (step (offering 0x0FFFF#18 ({ keyed with result := 0xAE63#16, rspValid := true })))).map
      (fun t => (t.rspValid, t.result, t.keyValid, t.fsm)) = some (false, 0xAE63#16, true, .idle) := by decide
theorem test_step_keyload_accepts :
    (stateOf (step (offering 0x13242#18 keyed))).map (fun t => (t.key.w0, t.key.w1, t.keyValid, t.fsm)) =
      some (0x32#8, 0x42#8, false, .kxW2) := by decide
theorem test_step_kxW4 : (stateOf (step (loading .kxW4))).map (fun t => (t.key.w4, t.fsm)) =
    some (0xCE#8, .kxW5) := by decide
theorem test_step_encrypt_accepts :
    (stateOf (step (offering 0x2CCD0#18 keyed))).map (fun t => (t.st, t.fsm)) =
      some (⟨0xF#4, 0x9#4, 0xE#4, 0x2#4⟩, .encS2) := by decide
theorem test_step_encS5 :
    (stateOf (step (busy .encS5 ⟨0x6#4, 0xF#4, 0x0#4, 0x0#4⟩))).map (fun t => (t.result, t.rspValid, t.fsm)) =
      some (0xAE63#16, true, .idle) := by decide
theorem test_step_decrypt_accepts :
    (stateOf (step (offering 0x3AE63#18 keyed))).map (fun t => (t.st, t.fsm)) =
      some (⟨0x6#4, 0xF#4, 0x0#4, 0x0#4⟩, .decS2) := by decide
theorem test_step_decS3 :
    (stateOf (step (busy .decS3 ⟨0x8#4, 0xE#4, 0xA#4, 0xA#4⟩))).map (fun t => (t.st, t.fsm)) =
      some (⟨0x7#4, 0x2#4, 0xA#4, 0xF#4⟩, .decS4) := by decide
theorem test_step_encrypt_dropped :
    stateOf (step (offering 0x21234#18 State.reset)) = some State.reset := by decide
theorem test_reset_aborts :
    (stateOf (step (resetting (busy .encS4 ⟨0xB#4, 0x4#4, 0x3#4, 0xC#4⟩)))).map
      (fun t => (t.fsm, t.keyValid, t.key, t.st)) =
      some (.idle, false, keyed.key, ⟨0xB#4, 0x4#4, 0x3#4, 0xC#4⟩) := by decide
theorem test_placed_word_runs :
    (stateOf (step (State.reset.withFetchWord 24 0x13242))).map (fun t => (t.key.w0, t.fsm)) =
      some (0x32#8, .kxW2) := by decide

/-! ### Power-up (R234, R231) -/

theorem test_command_before_reset :
    (Chip.powerUp [Pins.offer 0x13242#18]).step = .next (.unreset [Pins.offer 0x13242#18] []) := by rfl
theorem test_first_reset_writes_status : ∃ t : State, (Chip.powerUp [Pins.reset]).step = .next (.running t) ∧
    outputs t = ⟨true, false, 0x0000#16, false⟩ := ⟨_, Chip.step_reset _ rfl, rfl⟩

/-! ### The listing (R78 to R80) -/

/-- A line as the assembler reads it. -/
def parses (line : List Char) (ops : List HostOp) : Bool :=
  match assembleLine line with
  | .ok l => l == ops
  | .error _ => false

/-- A line the assembler refuses for the reason given. -/
def refuses (line : List Char) (why : AsmError) : Bool :=
  match assembleLine line with
  | .ok _ => false
  | .error e => e == why

theorem test_line_decrypt_result :
    parses [' ', 'D', 'E', 'C', 'R', 'Y', 'P', 'T', ' ', '@', 'R', 'E', 'S', 'U', 'L', 'T', ';', 'c'] [.decryptResult] := by
  decide
theorem test_line_binary_expect :
    parses ['E', 'X', 'P', 'E', 'C', 'T', ' ', '0', 'b', '1', '0', '1'] [.expect 5#16] := by decide
theorem test_line_roundtrip :
    parses ['R', 'O', 'U', 'N', 'D', 'T', 'R', 'I', 'P', ' ', '1', ',', ' ', '0', 'x', 'f'] (roundtrip 1#16 15#16) := by
  decide
theorem test_line_roundtrip_result_refused :
    refuses (roundtripLine ['1'] ['@', 'R', 'E', 'S', 'U', 'L', 'T']) .badImmediate := by decide
theorem test_line_out_of_range :
    refuses ['K', 'E', 'Y', 'L', 'O', 'A', 'D', ' ', '6', '5', '5', '3', '6'] .immediateOutOfRange := by decide
theorem test_line_lower_case : refuses ['n', 'o', 'p'] .unknownMnemonic := by decide
theorem test_host_offers_command :
    (HostSys.view ⟨keyed, [.waitKey, .command .nop], none, false⟩).offered = some .nop := by decide
theorem test_host_captures :
    (HostSys.view ⟨{ keyed with result := 7#16, rspValid := true }, [.waitRsp, .expect 7#16], none, false⟩) =
      ⟨[], some 7#16, false⟩ := by decide

/-! ### Witnesses: the hypotheses of each statement, met together, at the boundaries of its clauses -/

theorem witness_DecodeAndEncodeAgree :
    Instr.nop.wf = true ∧ (Instr.decrypt 0xFFFF#16).wf = true ∧ opField 0x10000#18 ≠ 0b00#2 ∧
    opField 0x3FFFF#18 ≠ 0b00#2 := by decide
theorem witness_EveryCmdWordIsOneCommand : 0 < 2 ^ 18 ∧ 0x3FFFF < 2 ^ 18 ∧ 2 ^ 18 ≤ 0x40000 := by decide
theorem witness_PlacedCommandRunsNext : 0x3FFFF < 2 ^ 18 ∧ 0 < 2 ^ 18 := by decide
theorem witness_NopCompletes : State.reset.fsm = .idle := by decide
theorem witness_KeyloadCompletes :
    State.reset.fsm = .idle ∧ noResetFor 4 State.reset = true ∧ keyed.fsm = .idle ∧ noResetFor 4 keyed = true := by
  decide
theorem witness_EncryptCompletes : keyed.fsm = .idle ∧ keyed.keyValid = true ∧ noResetFor 4 keyed = true := by decide
theorem witness_DecryptCompletes :
    (offering 0x10000#18 keyed).fsm = .idle ∧ (offering 0x10000#18 keyed).keyValid = true ∧
    noResetFor 4 (offering 0x10000#18 keyed) = true := by decide
theorem witness_CipherWithoutKeyIsDropped : State.reset.fsm = .idle ∧ State.reset.keyValid = false := by decide
theorem witness_BusyEngineTurnsCommandsAway : (loading .kxW2).fsm ≠ .idle ∧ (busy .decS5 keyed.st).fsm ≠ .idle := by decide
theorem witness_AcceptingEdgeDispatch_nop :
    accepts (offering 0x0FFFF#18 keyed) = true ∧ (offering 0x0FFFF#18 keyed).pins.cmdOp = 0b00#2 := by decide
theorem witness_AcceptingEdgeDispatch_keyload :
    accepts (offering 0x1FFFF#18 keyed) = true ∧ (offering 0x1FFFF#18 keyed).pins.cmdOp = 0b01#2 := by decide
theorem witness_AcceptingEdgeDispatch_encrypt :
    accepts (offering 0x20000#18 keyed) = true ∧ (offering 0x20000#18 keyed).pins.cmdOp = 0b10#2 ∧
    (offering 0x20000#18 keyed).keyValid = true := by decide
theorem witness_AcceptingEdgeDispatch_decrypt :
    accepts (offering 0x3FFFF#18 keyed) = true ∧ (offering 0x3FFFF#18 keyed).pins.cmdOp = 0b11#2 ∧
    (offering 0x3FFFF#18 keyed).keyValid = true := by decide
theorem witness_AcceptingEdgeDispatch_dropped :
    accepts (offering 0x20000#18 State.reset) = true ∧ (offering 0x20000#18 State.reset).pins.cmdOp = 0b10#2 ∧
    (offering 0x20000#18 State.reset).keyValid = false ∧
    accepts (offering 0x3FFFF#18 State.reset) = true ∧ (offering 0x3FFFF#18 State.reset).pins.cmdOp = 0b11#2 ∧
    (offering 0x3FFFF#18 State.reset).keyValid = false := by decide
theorem witness_KeyExpansionFsmRows :
    ([Fsm.kxW2, .kxW3, .kxW4, .kxW5].all fun f =>
      (loading f).fsm.isKx && (loading f).fsm == f && !(loading f).pins.rst &&
      (resetting (loading f)).fsm.isKx && (resetting (loading f)).pins.rst) = true := by decide
theorem witness_CipherFsmRows :
    ([Fsm.encS2, .encS3, .encS4, .encS5, .decS2, .decS3, .decS4, .decS5].all fun f =>
      (busy f keyed.st).fsm.isCipher && (busy f keyed.st).fsm == f && !(busy f keyed.st).pins.rst &&
      (resetting (busy f keyed.st)).fsm.isCipher && (resetting (busy f keyed.st)).pins.rst) = true := by decide
theorem witness_ResponsePulseLastsOneCycle :
    step (busy .encS5 keyed.st) = .next (edge (busy .encS5 keyed.st)) ∧
    (edge (busy .encS5 keyed.st)).rspValid = true ∧ (edge (busy .encS5 keyed.st)).pins.rst = false :=
  ⟨step_eq _, by decide, by decide⟩
theorem witness_CommandsFollowFixedPaths :
    step (busy .decS2 keyed.st) = .next (edge (busy .decS2 keyed.st)) ∧
    step (resetting keyed) = .next (edge (resetting keyed)) ∧
    step (offering 0x20000#18 keyed) = .next (edge (offering 0x20000#18 keyed)) := ⟨step_eq _, step_eq _, step_eq _⟩
theorem witness_BusyForExactlyFourCycles :
    keyed.fsm = .idle ∧ noResetFor 5 keyed = true ∧ State.reset.fsm = .idle ∧ noResetFor 5 State.reset = true := by
  decide
theorem witness_AcceptanceReadsThePorts :
    accepts (offering 0x3FFFF#18 keyed) = true ∧ accepts (offering 0x3FFFF#18 (busy .encS2 keyed.st)) = false ∧
    accepts (resetting keyed) = false ∧ accepts keyed = false := by decide
theorem witness_StepRunsTheDecodedCommand_command :
    (offering 0x2CCD0#18 keyed).pins.rst = false ∧ (offering 0x2CCD0#18 keyed).pins.cmdValid = true ∧
    decode (offering 0x2CCD0#18 keyed).pins.word = .encrypt 0xCCD0#16 ∧ (Instr.encrypt 0xCCD0#16).wf = true := by decide
theorem witness_StepRunsTheDecodedCommand_others :
    keyed.pins.rst = false ∧ keyed.pins.cmdValid = false ∧ (resetting keyed).pins.rst = true := by decide
theorem witness_RegistersChangeOnlyByTheirWriters_key :
    step (offering 0x1FFFF#18 keyed) = .next (edge (offering 0x1FFFF#18 keyed)) ∧
    (edge (offering 0x1FFFF#18 keyed)).key ≠ (offering 0x1FFFF#18 keyed).key ∧
    (edge (offering 0x1FFFF#18 keyed)).keyValid ≠ (offering 0x1FFFF#18 keyed).keyValid :=
  ⟨step_eq _, by decide, by decide⟩
theorem witness_RegistersChangeOnlyByTheirWriters_result :
    step (busy .encS5 keyed.st) = .next (edge (busy .encS5 keyed.st)) ∧
    (edge (busy .encS5 keyed.st)).result ≠ (busy .encS5 keyed.st).result ∧
    (edge (busy .encS5 keyed.st)).st ≠ (busy .encS5 keyed.st).st ∧ (edge (busy .encS5 keyed.st)).rspValid = true ∧
    (edge (busy .encS5 keyed.st)).fsm ≠ (busy .encS5 keyed.st).fsm := ⟨step_eq _, by decide⟩
theorem witness_RegistersChangeOnlyByTheirWriters_reset :
    step (resetting keyed) = .next (edge (resetting keyed)) ∧ (resetting keyed).pins.rst = true :=
  ⟨step_eq _, by decide⟩
theorem witness_ResetEdgeEffect : (resetting (busy .encS4 keyed.st)).pins.rst = true := by decide
theorem witness_OutputsAfterReset :
    (resetting keyed).pins.rst = true ∧ step (resetting keyed) = .next (edge (resetting keyed)) ∧
    (edge (resetting keyed)).pins.rst = false := ⟨by decide, step_eq _, by decide⟩
theorem witness_NoResponseWithoutKeyload :
    (offering 0x3FFFF#18 State.reset).fsm = .idle ∧ (offering 0x3FFFF#18 State.reset).keyValid = false ∧
    neverLoads (offering 0x3FFFF#18 State.reset) = true := by decide
theorem witness_BackInIdleWithinFourEdges :
    noResetFor 4 (loading .kxW2) = true ∧ noResetFor 4 (busy .encS2 keyed.st) = true := by decide
theorem witness_ResetMakesAnyStateConsistent :
    (resetting ((busy .kxW3 keyed.st).setRspValid true)).pins.rst = true ∧
    step (resetting ((busy .kxW3 keyed.st).setRspValid true)) =
      .next (edge (resetting ((busy .kxW3 keyed.st).setRspValid true))) := ⟨by decide, step_eq _⟩

/-- The invariant with a key loaded, in `IDLE` and in every cipher state. -/
theorem consistent_keyed (f : Fsm) (h : f.isKx = false) : Consistent (busy f keyed.st) where
  key_words _ := show keyed.key.expanded = true by decide
  key_invalid hk := Bool.noConfusion (h.symm.trans hk)
  key_partial := by revert h; cases f <;> decide
  cipher_key _ := rfl
  response hr := by cases hr

/-- The invariant in every state of a KEYLOAD. -/
theorem consistent_loading (f : Fsm) (h : f.isKx = true) : Consistent (loading f) where
  key_words hk := by cases hk
  key_invalid _ := rfl
  key_partial := by revert h; cases f <;> decide
  cipher_key hc := by revert h hc; cases f <;> decide
  response hr := by cases hr

theorem witness_StepKeepsConsistent :
    Consistent (busy .encS5 keyed.st) ∧ step (busy .encS5 keyed.st) = .next (edge (busy .encS5 keyed.st)) :=
  ⟨consistent_keyed _ rfl, step_eq _⟩
theorem witness_NoTornKeyNorResult_key :
    Consistent (loading .kxW5) ∧ step (loading .kxW5) = .next (edge (loading .kxW5)) ∧
    (edge (loading .kxW5)).key ≠ (loading .kxW5).key := ⟨consistent_loading _ rfl, step_eq _, by decide⟩
theorem witness_NoTornKeyNorResult_result :
    Consistent (busy .decS5 keyed.st) ∧ step (busy .decS5 keyed.st) = .next (edge (busy .decS5 keyed.st)) ∧
    (edge (busy .decS5 keyed.st)).result ≠ (busy .decS5 keyed.st).result :=
  ⟨consistent_keyed _ rfl, step_eq _, by decide⟩
theorem witness_UnwrittenRegistersAreUnobservable :
    (offering 0x13242#18 State.reset).fsm = .idle ∧ (offering 0x13242#18 State.reset).keyValid = false := by decide
theorem witness_KeyWordsCannotBeReadBack :
    (offering 0x13242#18 keyed).fsm.isCipher = false ∧ neverCiphers (offering 0x13242#18 keyed) = true := by decide
theorem witness_CommandRefinesTransaction :
    keyed.fsm = .idle ∧ noResetFor (busyTime (.encrypt 0xCCD0#16) keyed) keyed = true ∧
    noResetFor (busyTime .nop keyed) keyed = true := by decide
theorem witness_CommandSequencesRefineTransactions : (offering 0x3FFFF#18 keyed).fsm = .idle := by decide
theorem witness_LoadEncryptDecryptGivesThePlaintext : keyed.fsm = .idle := by decide
theorem witness_EverySboxRunsOnTheMachine :
    isBijection (fun x => x) = true ∧ keyed.fsm = .idle ∧
    noResetFor (busyTime (.decrypt 0xFFFF#16) keyed) keyed = true := by decide
theorem witness_AddRoundKeyAndShiftRowsUndoThemselves : (⟨1#4, 2#4, 3#4, 3#4⟩ : CState).s2 = 3#4 ∧
    (⟨1#4, 2#4, 3#4, 3#4⟩ : CState).s3 = 3#4 := by decide
theorem witness_ImmediatesAreNeverTruncated_grammar :
    ImmText ['6', '5', '5', '3', '5'] 65535 ∧ ImmText ['6', '5', '5', '3', '6'] 65536 ∧
    ImmText ['0', 'b', '1', '0'] 2 ∧ ImmText ['0', 'x', 'F'] 15 ∧ ImmText ['0', 'x', 'F', 'F', 'F', 'F'] 65535 :=
  ⟨.decimal [6, 5, 5, 3, 5] (by decide) (by decide), .decimal [6, 5, 5, 3, 6] (by decide) (by decide),
   .binary [1, 0] (by decide) (by decide) (by decide), .hexadecimal [15] (by decide) (by decide) (by decide),
   .hexadecimal [15, 15, 15, 15] (by decide) (by decide) (by decide)⟩
theorem witness_ImmediatesAreNeverTruncated_unread : readImm ['0', 'x', '1', '2', '3', '4', '5'] = none := by decide
theorem witness_ImmediatesAreNeverTruncated_lines : ∃ l ∈ immLines, l.1 = ['E', 'X', 'P', 'E', 'C', 'T'] :=
  ⟨(['E', 'X', 'P', 'E', 'C', 'T'], .expect), by simp [immLines], rfl⟩
theorem witness_ImmediatesAreNeverTruncated :
    readImm ['6', '5', '5', '3', '5'] = some 65535 ∧ 65535 ≤ 65535 ∧
    readImm ['6', '5', '5', '3', '6'] = some 65536 ∧ 65535 < 65536 := by decide
theorem witness_HostDirectivesWaitAndCapture_wait :
    (HostSys.mk State.reset [.waitKey] none false).program = HostOp.waitKey :: [] ∧ State.reset.keyValid = false ∧
    (HostSys.mk keyed [.waitKey] none false).program = HostOp.waitKey :: [] ∧ keyed.keyValid = true := by decide
theorem witness_HostDirectivesWaitAndCapture_response :
    (HostSys.mk keyed [.waitRsp] none false).program = HostOp.waitRsp :: [] ∧ keyed.rspValid = false ∧
    (HostSys.mk (keyed.setRspValid true) [.waitRsp] none false).program = HostOp.waitRsp :: [] ∧
    (keyed.setRspValid true).rspValid = true ∧
    (HostSys.mk keyed [.expect 7#16] none false).program = HostOp.expect 7#16 :: [] := by decide
theorem witness_HostHoldsACommandUntilAccepted :
    (HostSys.mk keyed [.decryptResult] (some 7#16) false).program = HostOp.decryptResult :: [] ∧
    HostOp.decryptResult.instr (some 7#16) = some (.decrypt 7#16) ∧ cmdReady keyed = true ∧
    cmdReady (busy .encS2 keyed.st) = false := by decide
theorem witness_UnresetEngineIsUnspecified : (([] : List Pins).headD Pins.quiet).rst = false ∧
    ([Pins.reset].headD Pins.quiet).rst = true := by decide
theorem witness_FirstResetEndsPowerUp :
    (∀ p ∈ [Pins.offer 0x13242#18, Pins.quiet], p.rst = false) ∧ Pins.reset.rst = true := by decide
theorem witness_RoundtripExpansionCapturesThePlaintext : keyed.fsm = .idle ∧ keyed.inputs = [] := by decide

end Sys2Proof.Tests
end

section
/-! SUPPORT. Acceptance of a command (10_state.md R22, R23): when an edge accepts, and what it then reads of the command
ports. -/

namespace Sys2Proof.Machine

/-- R23's equation for `cmd_ready`. -/
theorem cmdReady_eq_true_iff (s : State) : cmdReady s = true ↔ s.fsm = .idle ∧ s.pins.rst = false := by
  simp [cmdReady]

/-- R22's condition for an acceptance. -/
theorem accepts_eq_true_iff (s : State) :
    accepts s = true ↔ s.pins.rst = false ∧ s.pins.cmdValid = true ∧ cmdReady s = true := by
  simp [accepts, and_assoc]

/-- An acceptance in terms of the registers and the ports. -/
theorem accepts_eq_true_iff_idle (s : State) :
    accepts s = true ↔ s.pins.rst = false ∧ s.pins.cmdValid = true ∧ s.fsm = .idle := by
  rw [accepts_eq_true_iff, cmdReady_eq_true_iff]
  exact ⟨fun ⟨hr, hv, hf, _⟩ => ⟨hr, hv, hf⟩, fun ⟨hr, hv, hf⟩ => ⟨hr, hv, hf, hr⟩⟩

/-- Nothing is accepted in reset or out of `IDLE`. -/
theorem accepts_eq_false_of_reset_or_busy {s : State} (h : s.pins.rst = true ∨ s.fsm ≠ .idle) :
    accepts s = false := by
  rw [← Bool.not_eq_true, accepts_eq_true_iff_idle]
  rintro ⟨hr, -, hf⟩
  rcases h with hrst | hbusy
  · simp [hr] at hrst
  · exact hbusy hf

/-- Whether an edge accepts does not depend on `cmd_op` and `cmd_data`. -/
theorem accepts_withPins_command (s : State) (op : Opcode) (data : Block) :
    accepts (s.withPins { s.pins with cmdOp := op, cmdData := data }) = accepts s := rfl

/-- A command offered without reset is decoded from the ports and executed, accepted or not. -/
theorem step_offered {s : State} (hr : s.pins.rst = false) (hv : s.pins.cmdValid = true) :
    step s = exec (decode s.pins.word) s.nextCycle := by
  unfold step stepBy
  rw [if_neg (by simp [hr]), if_pos hv]

/-- An edge that accepts nothing is a reset edge or a quiet one: of the ports it reads `rst` only. -/
theorem edgeWith_of_not_accepts (t : SBox) {s : State} (h : accepts s = false) :
    edgeWith t s = if s.pins.rst then resetEdge s.nextCycle else quietEdge t s.nextCycle := by
  split
  case isTrue hr => exact edge_reset t hr
  case isFalse hr =>
    have hr : s.pins.rst = false := by simpa using hr
    by_cases hf : s.fsm = .idle
    · have hv : s.pins.cmdValid = false := by
        rw [← Bool.not_eq_true]
        exact fun hv => Bool.false_ne_true (h.symm.trans ((accepts_eq_true_iff_idle s).mpr ⟨hr, hv, hf⟩))
      exact (edge_idle_quiet t hr hv hf).trans (fsmStep_idle t (s := latchRspValid s.nextCycle) hf).symm
    · exact edge_busy t hr hf

/-- An edge that accepts nothing ignores `cmd_op` and `cmd_data`. -/
theorem step_withPins_command_of_not_accepts {s : State} (h : accepts s = false) (op : Opcode) (data : Block) :
    step (s.withPins { s.pins with cmdOp := op, cmdData := data }) = step s := by
  have h' := (accepts_withPins_command s op data).trans h
  have hedge := (edgeWith_of_not_accepts sbox h').trans (edgeWith_of_not_accepts sbox h).symm
  rw [step_eq, step_eq, edge, edge, hedge]

/-- Settles O33: the acceptance condition of R22 and R23, the decoded command at an accepting edge, and at any other edge
a step that reads `rst` only. -/
theorem acceptanceReadsThePorts : Obligations.AcceptanceReadsThePorts := by
  intro s
  refine ⟨accepts_eq_true_iff s, cmdReady_eq_true_iff s, accepts_eq_false_of_reset_or_busy, fun h => ?_,
    step_withPins_command_of_not_accepts⟩
  obtain ⟨hr, hv, -⟩ := (accepts_eq_true_iff s).mp h
  exact step_offered hr hv

end Sys2Proof.Machine
end

section
/-! SUPPORT. CMD words (30_encoding.md R70): the two fields and the word they make, the decoder by opcode, the encoder
(R77), and the rows of the opcode table (R72, R74). -/

namespace Sys2Proof

open Sys2Proof.Laws

/-! ### A CMD word and its fields -/

/-- `cmd_op || cmd_data` is the concatenation of the two ports, so the library's lemmas on `++` apply to it. -/
theorem cmdWord_eq_append (op : Opcode) (data : Block) : cmdWord op data = op ++ data :=
  BitVec.setWidth_append_eq_shiftLeft_setWidth_or.symm.trans (BitVec.setWidth_eq _)

@[simp] theorem opField_cmdWord (op : Opcode) (data : Block) : opField (cmdWord op data) = op := by
  rw [cmdWord_eq_append]
  exact BitVec.extractLsb'_append_eq_left

@[simp] theorem dataField_cmdWord (op : Opcode) (data : Block) : dataField (cmdWord op data) = data := by
  rw [cmdWord_eq_append]
  exact BitVec.extractLsb'_append_eq_right

@[simp] theorem cmdWord_fields (cmd : CmdWord) : cmdWord (opField cmd) (dataField cmd) = cmd := by
  rw [cmdWord_eq_append]
  exact BitVec.extractLsb'_append_extractLsb' (w := 2) (len := 16)

theorem toNat_cmdWord (op : Opcode) (data : Block) : (cmdWord op data).toNat = op.toNat * 2 ^ 16 + data.toNat := by
  rw [cmdWord_eq_append, BitVec.toNat_append, ← Nat.shiftLeft_add_eq_or_of_lt data.isLt, Nat.shiftLeft_eq]

/-- The four values of `op` (R72). -/
theorem opcode_cases (op : Opcode) : op = 0b00#2 ∨ op = 0b01#2 ∨ op = 0b10#2 ∨ op = 0b11#2 := by
  revert op
  decide

/-! ### The decoder, one equation per opcode -/

section
variable {cmd : CmdWord}

theorem decode_of_op_nop (h : opField cmd = 0b00#2) : decode cmd = .nop := by simp [decode, h]
theorem decode_of_op_keyload (h : opField cmd = 0b01#2) : decode cmd = .keyload (dataField cmd) := by simp [decode, h]
theorem decode_of_op_encrypt (h : opField cmd = 0b10#2) : decode cmd = .encrypt (dataField cmd) := by simp [decode, h]
theorem decode_of_op_decrypt (h : opField cmd = 0b11#2) : decode cmd = .decrypt (dataField cmd) := by simp [decode, h]

end

/-- Decoding keeps the opcode of every word. -/
theorem opcode_decode (cmd : CmdWord) : (decode cmd).opcode = opField cmd := by
  rcases opcode_cases (opField cmd) with h | h | h | h
  · rw [decode_of_op_nop h, h]; rfl
  · rw [decode_of_op_keyload h, h]; rfl
  · rw [decode_of_op_encrypt h, h]; rfl
  · rw [decode_of_op_decrypt h, h]; rfl

/-- Decoding keeps the data of every word but a NOP's. -/
theorem operand_decode {cmd : CmdWord} (hop : opField cmd ≠ 0b00#2) : (decode cmd).operand = dataField cmd := by
  rcases opcode_cases (opField cmd) with h | h | h | h
  · exact absurd h hop
  · rw [decode_of_op_keyload h]; rfl
  · rw [decode_of_op_encrypt h]; rfl
  · rw [decode_of_op_decrypt h]; rfl

/-! ### The encoder, and that each undoes the other -/

/-- The encoder puts the command's opcode and operand side by side. -/
theorem encode_eq_cmdWord (i : Instr) : encode i = cmdWord i.opcode i.operand := by
  cases i <;> simp [encode, cmdWord, Instr.opcode, Instr.operand]

/-- The number a command is encoded to. -/
theorem toNat_encode (i : Instr) : (encode i).toNat = i.opcode.toNat * 2 ^ 16 + i.operand.toNat := by
  rw [encode_eq_cmdWord, toNat_cmdWord]

/-- A command is the one its own opcode and operand decode to. -/
theorem decode_encode (i : Instr) : decode (encode i) = i := by
  have hop : opField (encode i) = i.opcode := by rw [encode_eq_cmdWord, opField_cmdWord]
  have hdata : dataField (encode i) = i.operand := by rw [encode_eq_cmdWord, dataField_cmdWord]
  cases i with
  | nop => exact decode_of_op_nop hop
  | keyload key => rw [decode_of_op_keyload hop, hdata]; rfl
  | encrypt block => rw [decode_of_op_encrypt hop, hdata]; rfl
  | decrypt block => rw [decode_of_op_decrypt hop, hdata]; rfl

/-- Only a NOP word can lose anything in decoding: the data its command does not carry. -/
theorem encode_decode {cmd : CmdWord} (hop : opField cmd ≠ 0b00#2) : encode (decode cmd) = cmd := by
  rw [encode_eq_cmdWord, opcode_decode, operand_decode hop, cmdWord_fields]

/-- Settles O2: a CMD word is the concatenation of its fields, the decoder keeps both of them except a NOP's data, and
the encoder puts them together again. -/
theorem decodeAndEncodeAgree : Obligations.DecodeAndEncodeAgree := by
  refine ⟨fun data => ⟨?_, ?_, ?_, ?_⟩,
    fun data => ⟨?_, ?_, ?_, rfl⟩,
    fun i _ => decode_encode i, fun cmd => encode_decode, cmdWord_fields⟩
  · exact decode_of_op_nop (opField_cmdWord _ _)
  · rw [decode_of_op_keyload (opField_cmdWord _ _), dataField_cmdWord]
  · rw [decode_of_op_encrypt (opField_cmdWord _ _), dataField_cmdWord]
  · rw [decode_of_op_decrypt (opField_cmdWord _ _), dataField_cmdWord]
  · simpa [Instr.opcode, Instr.operand] using toNat_encode (.keyload data)
  · simpa [Instr.opcode, Instr.operand] using toNat_encode (.encrypt data)
  · simpa [Instr.opcode, Instr.operand] using toNat_encode (.decrypt data)

/-! ### The rows of the opcode table -/

/-- Every operand is valid for every command (R73). -/
theorem Instr.wf_eq_true (i : Instr) : i.wf = true := by
  cases i <;> rfl

/-- Masking a word with bits 17:16 keeps its opcode. -/
theorem opField_and_mask (cmd : CmdWord) : opField (cmd &&& 0x30000#18) = opField cmd := by
  rw [opField, BitVec.extractLsb'_and]
  exact BitVec.and_allOnes

/-- A row that masks bits 17:16 covers exactly the words with its pattern's opcode. -/
theorem covers_iff_opField {pattern : CmdWord} (hp : dataField pattern = 0#16) (cmd : CmdWord) :
    OpcodeRow.covers ⟨0x30000#18, pattern⟩ cmd = true ↔ opField cmd = opField pattern := by
  refine ⟨fun h => ?_, EncodeFields.covers_of_opField cmd pattern hp⟩
  have hmask : cmd &&& 0x30000#18 = pattern := eq_of_beq h
  rw [← hmask, opField_and_mask]

/-- A command's row covers exactly the words with the command's opcode. -/
theorem row_covers_iff (i : Instr) (cmd : CmdWord) : i.row.covers cmd = true ↔ opField cmd = i.opcode := by
  cases i <;> exact covers_iff_opField (by decide) cmd

/-- The opcodes of the four rows are distinct, so one row covers a word: that of the command it decodes to. -/
theorem filter_covers_eq_row_decode (cmd : CmdWord) :
    opcodeTable.filter (fun r => r.covers cmd) = [(decode cmd).row] := by
  simp only [opcodeTable, List.filter_cons, List.filter_nil, row_covers_iff, Instr.opcode]
  rcases opcode_cases (opField cmd) with h | h | h | h
  · rw [decode_of_op_nop h, h]; rfl
  · rw [decode_of_op_keyload h, h]; rfl
  · rw [decode_of_op_encrypt h, h]; rfl
  · rw [decode_of_op_decrypt h, h]; rfl

/-! ### Raw numbers -/

theorem decodeRaw_of_lt {w : Nat} (h : w < 2 ^ 18) : decodeRaw w = .ok (decode (BitVec.ofNat 18 w)) :=
  if_pos (decide_eq_true h)

theorem decodeRaw_of_le {w : Nat} (h : 2 ^ 18 ≤ w) : decodeRaw w = .error .notACmdWord :=
  if_neg fun hw => Nat.not_lt.mpr h (of_decide_eq_true hw)

/-- Settles O3: a number below 2^18 decodes to a command, whose row is the one row that covers it; any other number is
rejected. -/
theorem everyCmdWordIsOneCommand : Obligations.EveryCmdWordIsOneCommand :=
  ⟨fun _ hw => ⟨_, decodeRaw_of_lt hw, Instr.wf_eq_true _, filter_covers_eq_row_decode _⟩, fun _ => decodeRaw_of_le⟩

end Sys2Proof
end

section
/-! SUPPORT. The nibble-substitution unit (40_substitution.md): the search behind `SBOXI` and that the two tables undo
each other (R101, R102). -/

namespace Sys2Proof.Machine

/-- The search of R101 stops at `x` on `SBOX[x]`: it finds some nibble with that entry, and `x` is the only one. -/
theorem find?_allNibbles_table (t : SBox) (x : Nibble) :
    (allNibbles.find? fun z => t.table z == t.table x) = some x := by
  obtain ⟨z, hz⟩ : ∃ z, (allNibbles.find? fun z => t.table z == t.table x) = some z :=
    Option.isSome_iff_exists.mp (List.find?_isSome.mpr ⟨x, mem_allNibbles x, beq_self_eq_true _⟩)
  have htable : t.table z = t.table x := eq_of_beq (List.find?_some hz :)
  rw [hz, sbox_injective t htable]

/-- `SBOXI[SBOX[x]] = x`. -/
@[simp] theorem sboxInverse_table (t : SBox) (x : Nibble) : sboxInverse t (t.table x) = x := by
  rw [sboxInverse, find?_allNibbles_table, Option.getD_some]

/-- Every nibble is an entry of the table: it is injective and there are only sixteen nibbles. -/
theorem sbox_surjective (t : SBox) : Function.Surjective t.table :=
  have : Finite Nibble := .of_equiv _ BitVec.equivFin.symm.toEquiv
  Finite.surjective_of_injective fun _ _ => sbox_injective t

/-- `SBOX[SBOXI[y]] = y`. -/
@[simp] theorem table_sboxInverse (t : SBox) (y : Nibble) : t.table (sboxInverse t y) = y := by
  obtain ⟨x, rfl⟩ := sbox_surjective t y
  rw [sboxInverse_table]

/-- Settles O5: the search finds the one nibble of an entry, every nibble is an entry, and the table of this hardware
was checked when `sbox` was built. -/
theorem sboxTablesAreMutualInverses : Obligations.SboxTablesAreMutualInverses :=
  ⟨fun t x => ⟨sboxInverse_table t x, table_sboxInverse t x⟩, sbox.bijective⟩

end Sys2Proof.Machine
end

section
/-! SUPPORT. The Block to State converter and its inverse as arithmetic on numbers (42_state_conversion.md R130, R131).
-/

namespace Sys2Proof.Machine

/-- A nibble of a Block as a number: the Block's value without its low `start` bits, modulo 16. -/
theorem toNat_nibbleAt (n : Block) (start : Nat) : (n.extractLsb' start 4).toNat = n.toNat / 2 ^ start % 16 := by
  rw [BitVec.extractLsb'_toNat, Nat.shiftRight_eq_div_pow]

/-- B2S by the value of each position; position 0 needs no reduction, its nibble is the Block's highest (R130). -/
theorem toNat_b2s (n : Block) :
    (b2s n).s0.toNat = n.toNat / 4096 ∧ (b2s n).s1.toNat = n.toNat / 16 % 16 ∧
    (b2s n).s2.toNat = n.toNat / 256 % 16 ∧ (b2s n).s3.toNat = n.toNat % 16 := by
  have htop : n.toNat / 2 ^ 12 < 16 := Nat.div_lt_of_lt_mul n.isLt
  refine ⟨?_, toNat_nibbleAt n 4, toNat_nibbleAt n 8, ?_⟩
  · exact (toNat_nibbleAt n 12).trans (Nat.mod_eq_of_lt htop)
  · exact (toNat_nibbleAt n 0).trans (by rw [pow_zero, Nat.div_one])

/-- S2B puts the positions side by side in the order 0, 2, 1, 3, so the library's lemmas on `++` apply to it (R131). -/
theorem s2b_eq_append (s : CState) : s2b s = s.s0 ++ s.s2 ++ s.s1 ++ s.s3 := by
  rw [← BitVec.setWidth_eq (s.s0 ++ s.s2 ++ s.s1 ++ s.s3)]
  simp only [s2b, BitVec.setWidth_append_eq_shiftLeft_setWidth_or, BitVec.shiftLeft_or_distrib, ← BitVec.shiftLeft_add]

/-- Placing a nibble below a number shifts the number up by one hexadecimal digit. -/
theorem toNat_append_nibble {w : Nat} (x : BitVec w) (a : Nibble) : (x ++ a).toNat = x.toNat * 16 + a.toNat := by
  rw [BitVec.toNat_append, ← Nat.shiftLeft_add_eq_or_of_lt a.isLt, Nat.shiftLeft_eq]

/-- S2B as a sum: the fields do not overlap, so the `|` of R131 is a `+`. -/
theorem toNat_s2b (s : CState) :
    (s2b s).toNat = s.s0.toNat * 4096 + s.s2.toNat * 256 + s.s1.toNat * 16 + s.s3.toNat := by
  rw [s2b_eq_append, toNat_append_nibble, toNat_append_nibble, toNat_append_nibble]
  ring

/-- Settles O11: the values of the positions and of the packed Block for all inputs; the corner cases and examples are
evaluated. -/
theorem blockAndStateBitFields : Obligations.BlockAndStateBitFields :=
  ⟨toNat_b2s, toNat_s2b, by decide⟩

end Sys2Proof.Machine
end

section
/-! SUPPORT. The unit, the zero and the commutativity of GFMul (43_round_primitives.md R141), and the laws of
AddRoundKey and ShiftRows (R145, R148, R150, R151). -/

namespace Sys2Proof.Machine

/-! ### GFMul -/

/-- Shifting keeps the zero polynomial, so a zero multiplicand adds nothing to the running product. -/
theorem gfLoop_zero (n : Nat) (b p : Nibble) : gfLoop n 0#4 b p = p := by
  have hshift : gfShift 0#4 = 0#4 := by decide
  induction n generalizing b p with
  | zero => rfl
  | succ n ih => rw [gfLoop, hshift, ih, BitVec.xor_zero, ite_self]

@[simp] theorem gfMul_zero_left (b : Nibble) : gfMul 0#4 b = 0#4 := gfLoop_zero 4 b 0#4

/-- The shifts of 1 stay below bit 4, so they are the unit nibbles and the product collects the bits of `a`. -/
@[simp] theorem gfMul_one_left (a : Nibble) : gfMul 1#4 a = a := by
  revert a
  decide

/-- By evaluation of all 256 products, as R142 does. -/
theorem gfMul_comm (a b : Nibble) : gfMul a b = gfMul b a := by
  revert a b
  decide

/-- Settles O13: the three laws of R141. -/
theorem gfUnitZeroAndCommutativity : Obligations.GfUnitZeroAndCommutativity := fun a b =>
  ⟨gfMul_one_left a, gfMul_zero_left a, gfMul_comm a b⟩

/-! ### AddRoundKey -/

/-- XOR is commutative in each position. -/
theorem ark_comm (a b : CState) : ark a b = ark b a := by
  simp only [ark, BitVec.xor_comm]

@[simp] theorem ark_zero (s : CState) : ark s ⟨0#4, 0#4, 0#4, 0#4⟩ = s := by
  simp only [ark, BitVec.xor_zero]

@[simp] theorem ark_self (s : CState) : ark s s = ⟨0#4, 0#4, 0#4, 0#4⟩ := by
  simp only [ark, BitVec.xor_self]

theorem ark_assoc (a b c : CState) : ark (ark a b) c = ark a (ark b c) := by
  simp only [ark, BitVec.xor_assoc]

/-- The two keys cancel before they meet the State. -/
@[simp] theorem ark_ark_cancel_right (s k : CState) : ark (ark s k) k = s := by
  rw [ark_assoc, ark_self, ark_zero]

/-! ### ShiftRows -/

/-- Exchanging two positions twice puts both back. -/
@[simp] theorem sr_sr (s : CState) : sr (sr s) = s := rfl

/-- The exchange cannot be seen on equal nibbles. -/
theorem sr_of_s2_eq_s3 {s : CState} (h : s.s2 = s.s3) : sr s = s := CState.ext rfl rfl h.symm h

/-- Settles O16: the positions of both operations are their definitions, the laws are those above, and the two examples
are evaluated. -/
theorem addRoundKeyAndShiftRowsUndoThemselves : Obligations.AddRoundKeyAndShiftRowsUndoThemselves :=
  ⟨fun _ _ => rfl, fun _ => rfl, fun s => ⟨ark_zero s, ark_self s⟩, fun _ => sr_of_s2_eq_s3, by decide, by decide,
    ark_comm, ark_ark_cancel_right, sr_sr⟩

end Sys2Proof.Machine
end

section
/-! SUPPORT. The dispatch of an accepted command (44_cipher_commands.md R167, R168, R170), and what every edge makes of
`RSP_VALID` (R169) and of `fsm` (R172, R173). -/

namespace Sys2Proof.Machine

/-! ### The accepting edge, one equation per row of R170 -/

section
variable {s : State}

/-- In `IDLE` the update of R169 clears the response. -/
theorem latchRspValid_of_idle (h : s.fsm = .idle) : latchRspValid s = s.setRspValid false := by
  rw [latchRspValid, h]; rfl

/-- In `IDLE` exec clears the response and performs the command's row of R170. -/
theorem exec_of_idle (i : Instr) (h : s.fsm = .idle) : exec i s = .next (acceptCommand i (s.setRspValid false)) := by
  rw [exec_eq, offeredEdge_idle sbox _ h, latchRspValid_of_idle h]

/-- An accepting step clears the response and performs the row of R170 of the command on the ports. -/
theorem step_of_accepts (h : accepts s = true) :
    step s = .next (acceptCommand (decode s.pins.word) (s.nextCycle.setRspValid false)) := by
  obtain ⟨hr, hv, hf⟩ := (accepts_eq_true_iff_idle s).mp h
  rw [step_offered hr hv, exec_of_idle _ (s := s.nextCycle) hf]

theorem acceptEncrypt_of_key (p : Block) (h : s.keyValid = true) :
    acceptEncrypt p s = (s.setSt (ark s.key.k0 (b2s p))).setFsm .encS2 := if_pos h

theorem acceptDecrypt_of_key (c : Block) (h : s.keyValid = true) :
    acceptDecrypt c s = (s.setSt (ark s.key.k2 (b2s c))).setFsm .decS2 := if_pos h

theorem acceptEncrypt_of_no_key (p : Block) (h : s.keyValid = false) : acceptEncrypt p s = s := if_neg (by simp [h])

theorem acceptDecrypt_of_no_key (c : Block) (h : s.keyValid = false) : acceptDecrypt c s = s := if_neg (by simp [h])

end

/-! ### What no row of R170 touches, and where a row enters the FSM -/

section
variable (i : Instr) (s : State)

/-- Everything an accepted command can do: nothing, which keeps the engine in `IDLE`, or one of three rows of R170. -/
theorem acceptCommand_cases :
    (entryState s.keyValid i = .idle ∧ acceptCommand i s = s) ∨
    (∃ key, i = .keyload key ∧ acceptCommand i s = acceptKeyload key s) ∨
    (∃ p, i = .encrypt p ∧ s.keyValid = true ∧
      acceptCommand i s = (s.setSt (ark s.key.k0 (b2s p))).setFsm .encS2) ∨
    (∃ c, i = .decrypt c ∧ s.keyValid = true ∧
      acceptCommand i s = (s.setSt (ark s.key.k2 (b2s c))).setFsm .decS2) := by
  cases i with
  | nop => exact .inl ⟨rfl, rfl⟩
  | keyload key => exact .inr (.inl ⟨key, rfl, rfl⟩)
  | encrypt p =>
    cases hk : s.keyValid with
    | false => exact .inl ⟨rfl, acceptEncrypt_of_no_key p hk⟩
    | true => exact .inr (.inr (.inl ⟨p, rfl, rfl, acceptEncrypt_of_key p hk⟩))
  | decrypt c =>
    cases hk : s.keyValid with
    | false => exact .inl ⟨rfl, acceptDecrypt_of_no_key c hk⟩
    | true => exact .inr (.inr (.inr ⟨c, rfl, rfl, acceptDecrypt_of_key c hk⟩))

/-- No row of R170 writes the response or touches the host. -/
theorem acceptCommand_frame :
    (acceptCommand i s).rspValid = s.rspValid ∧ (acceptCommand i s).result = s.result ∧
    (acceptCommand i s).inputs = s.inputs := by
  rcases acceptCommand_cases i s with ⟨-, h⟩ | ⟨_, -, h⟩ | ⟨_, -, -, h⟩ | ⟨_, -, -, h⟩ <;>
    rw [h] <;> exact ⟨rfl, rfl, rfl⟩

@[simp] theorem acceptCommand_rspValid : (acceptCommand i s).rspValid = s.rspValid := (acceptCommand_frame i s).1
@[simp] theorem acceptCommand_result : (acceptCommand i s).result = s.result := (acceptCommand_frame i s).2.1
@[simp] theorem acceptCommand_inputs : (acceptCommand i s).inputs = s.inputs := (acceptCommand_frame i s).2.2

/-- An accepted command enters its fixed path (R172). -/
theorem acceptCommand_fsm {s : State} (h : s.fsm = .idle) : (acceptCommand i s).fsm = entryState s.keyValid i := by
  rcases acceptCommand_cases i s with ⟨he, ha⟩ | ⟨_, rfl, ha⟩ | ⟨_, rfl, hk, ha⟩ | ⟨_, rfl, hk, ha⟩
  · rw [ha, he, h]
  · rw [ha]; rfl
  · rw [ha, hk]; rfl
  · rw [ha, hk]; rfl

end

/-! ### The FSM edge along the fixed paths -/

/-- The FSM edge takes the path's one successor. -/
@[simp] theorem fsmStep_fsm (t : SBox) (s : State) : (fsmStep t s).fsm = s.fsm.successor := by
  unfold fsmStep
  split
  case h_1 h => simp [h, Fsm.successor]
  all_goals next h => rw [h]; rfl

/-- The last edge of a cipher command packs the State it writes into `RESULT` (R164, R166). -/
theorem fsmStep_result_of_last (t : SBox) {s : State} (h : s.fsm = .encS5 ∨ s.fsm = .decS5) :
    (fsmStep t s).result = s2b (fsmStep t s).st := by
  rcases h with h | h
  · rw [fsmStep_encS5 t h]; rfl
  · rw [fsmStep_decS5 t h]; rfl

/-! ### What every edge makes of the registers -/

section
variable (t : SBox)

/-- The update of R169, at every edge. -/
theorem edgeWith_rspValid (s : State) : (edgeWith t s).rspValid = rspValidNext s.pins.rst s.fsm := by
  by_cases ha : accepts s = true
  · obtain ⟨hr, hv, hf⟩ := (accepts_eq_true_iff_idle s).mp ha
    simp [edge_accept t hr hv hf, hr]
  · rw [edgeWith_of_not_accepts t (by simpa using ha)]
    cases s.pins.rst
    · simp [quietEdge, fsmStep_rspValid]
    · rfl

/-- The `fsm` after every edge (R172), one edge equation per branch. -/
theorem edgeWith_fsm (s : State) :
    (edgeWith t s).fsm =
      if s.pins.rst then .idle
      else if s.fsm = .idle then
        if s.pins.cmdValid then entryState s.keyValid (decode s.pins.word) else .idle
      else s.fsm.successor := by
  split
  case isTrue hr => rw [edge_reset t hr, resetEdge_fsm]
  case isFalse hr =>
    simp only [Bool.not_eq_true] at hr
    split
    case isTrue hf =>
      split
      case isTrue hv => rw [edge_accept t hr hv hf]; exact acceptCommand_fsm _ hf
      case isFalse hv => rw [edge_idle_quiet t hr (by simpa using hv) hf]; exact hf
    case isFalse hf => rw [edge_busy t hr hf, fsmStep_fsm, latchRspValid_fsm, State.nextCycle_fsm]

/-- In `IDLE` only reset writes `RESULT`. -/
theorem edgeWith_result_of_idle {s : State} (hf : s.fsm = .idle) (hr : s.pins.rst = false) :
    (edgeWith t s).result = s.result := by
  cases hv : s.pins.cmdValid
  · rw [edge_idle_quiet t hr hv hf]; rfl
  · rw [edge_accept t hr hv hf]; simp

/-- An idle engine with a quiet host and no response pending stays as it is. -/
theorem edgeWith_eq_self {s : State} (hf : s.fsm = .idle) (hi : s.inputs = []) (hv : s.rspValid = false) :
    edgeWith t s = s := by
  have hp : s.pins = Pins.quiet := pins_of_inputs_nil hi
  rw [edge_idle_quiet t (by rw [hp]; rfl) (by rw [hp]; rfl) hf, latchRspValid_of_idle (s := s.nextCycle) hf]
  ext1 <;> simp [hi, hv]

end

/-- A step answers `edge` and nothing else. -/
theorem edge_eq_of_step {s t : State} (h : step s = .next t) : edge s = t :=
  Host.Outcome.next.inj ((step_eq s).symm.trans h)

/-- A state an edge leaves as it is stays so for ever. -/
theorem run_eq_self {s : State} (h : edge s = s) (n : Nat) : run n s = .next s := by
  induction n with
  | zero => rfl
  | succ n ih => rw [run_succ, h, ih]

/-! ### The busy time (R173) -/

/-- How many edges without reset lead back to `IDLE`. -/
def Fsm.edgesToIdle : Fsm → Nat
  | .idle => 0
  | .kxW5 | .encS5 | .decS5 => 1
  | .kxW4 | .encS4 | .decS4 => 2
  | .kxW3 | .encS3 | .decS3 => 3
  | .kxW2 | .encS2 | .decS2 => 4

theorem Fsm.edgesToIdle_eq_zero_iff (f : Fsm) : f.edgesToIdle = 0 ↔ f = .idle := by cases f <;> decide

/-- Each edge of a fixed path counts down by one. -/
theorem Fsm.edgesToIdle_successor (f : Fsm) : f.successor.edgesToIdle = f.edgesToIdle - 1 := by cases f <;> rfl

/-- A command enters its path four edges from its end, or does not leave `IDLE`. -/
theorem edgesToIdle_entryState (keyValid : Bool) (i : Instr) :
    (entryState keyValid i).edgesToIdle =
      if i = .nop ∨ (i.opcode.getLsbD 1 = true ∧ keyValid = false) then 0 else 4 := by
  cases i with
  | nop => rfl
  | keyload key => simp [entryState, Fsm.edgesToIdle, Instr.opcode]
  | encrypt p => cases keyValid <;> simp [entryState, Fsm.edgesToIdle, Instr.opcode]
  | decrypt c => cases keyValid <;> simp [entryState, Fsm.edgesToIdle, Instr.opcode]

/-- While a command is in progress, `m` edges without reset bring the engine `m` edges closer to `IDLE`. -/
theorem run_edgesToIdle {m n : Nat} {s : State} (hr : noResetFor (m + n) s = true) (hm : m ≤ s.fsm.edgesToIdle) :
    ∃ u, run m s = .next u ∧ u.fsm.edgesToIdle = s.fsm.edgesToIdle - m ∧ noResetFor n u = true := by
  induction m generalizing s with
  | zero => exact ⟨s, rfl, rfl, by simpa using hr⟩
  | succ m ih =>
    obtain ⟨hrst, hrest⟩ := noResetFor_succ (n := m + n) (by rwa [Nat.add_right_comm] at hr)
    have hbusy : s.fsm ≠ .idle := by rw [Ne, ← Fsm.edgesToIdle_eq_zero_iff]; omega
    have hleft : (edge s).fsm.edgesToIdle = s.fsm.edgesToIdle - 1 := by
      rw [edgeWith_fsm, if_neg (by simp [hrst]), if_neg hbusy, Fsm.edgesToIdle_successor]
    have hinputs : (edge s).inputs = s.nextCycle.inputs := by
      rw [edge, edge_busy sbox hrst hbusy, fsmStep_inputs, latchRspValid_inputs]
    obtain ⟨u, hu, hcount, hnr⟩ := ih (s := edge s) (by rwa [noResetFor_congr hinputs]) (by omega)
    exact ⟨u, by rw [run_succ, hu], by omega, hnr⟩

/-- `cmd_ready` in a cycle without reset says whether a command is in progress. -/
theorem cmdReady_eq_decide_edgesToIdle {s : State} (hr : s.pins.rst = false) :
    cmdReady s = decide (s.fsm.edgesToIdle = 0) := by
  rw [Bool.eq_iff_iff, cmdReady_eq_true_iff, decide_eq_true_iff, Fsm.edgesToIdle_eq_zero_iff, and_iff_left hr]

/-- In the cycles without reset up to the end of a command, `cmd_ready` is 1 in the last one only. -/
theorem run_cmdReady {n j : Nat} {s : State} (hr : noResetFor (n + 1) s = true) (hn : j ≤ n)
    (hj : j ≤ s.fsm.edgesToIdle) : ∃ u, run j s = .next u ∧ cmdReady u = decide (j = s.fsm.edgesToIdle) := by
  obtain ⟨u, hu, hcount, hnr⟩ :=
    run_edgesToIdle (n := n - j + 1) (by rwa [show j + (n - j + 1) = n + 1 by omega]) hj
  refine ⟨u, hu, ?_⟩
  rw [cmdReady_eq_decide_edgesToIdle (noResetFor_succ hnr).1, hcount, decide_eq_decide]
  omega

/-! ### The statements -/

/-- Settles O21: in `IDLE` the row of NOP is empty, and decoding looks at the opcode alone. -/
theorem nopCompletes : Obligations.NopCompletes :=
  ⟨fun data => decode_of_op_nop (opField_cmdWord _ data), rfl, fun _ h => exec_of_idle .nop h⟩

/-- Settles O25: without a key the rows of both cipher commands are empty, and the state they answer, once the host is
quiet, is a fixed point of the edge. -/
theorem cipherWithoutKeyIsDropped : Obligations.CipherWithoutKeyIsDropped := by
  intro b s hf hk
  have hfix : edge ((s.setRspValid false).setInputs []) = (s.setRspValid false).setInputs [] :=
    edgeWith_eq_self sbox hf rfl rfl
  refine ⟨?_, ?_, fun n => ⟨_, run_eq_self hfix n, rfl, rfl⟩⟩
  · rw [exec_of_idle _ hf]; exact congrArg _ (acceptEncrypt_of_no_key b hk)
  · rw [exec_of_idle _ hf]; exact congrArg _ (acceptDecrypt_of_no_key b hk)

/-- Settles O27: each opcode decodes to its command, whose row of R170 the accepting step performs. -/
theorem acceptingEdgeDispatch : Obligations.AcceptingEdgeDispatch := by
  intro s ha
  have hop : opField s.pins.word = s.pins.cmdOp := opField_cmdWord _ _
  have hdata : dataField s.pins.word = s.pins.cmdData := dataField_cmdWord _ _
  simp only [step_of_accepts ha]
  refine ⟨fun h => ?_, fun h => ?_, fun h hk => ?_, fun h hk => ?_, fun h hk => ?_⟩
  · rw [decode_of_op_nop (hop.trans h)]; rfl
  · rw [decode_of_op_keyload (hop.trans h), hdata]; rfl
  · rw [decode_of_op_encrypt (hop.trans h), hdata]; exact congrArg _ (acceptEncrypt_of_key _ hk)
  · rw [decode_of_op_decrypt (hop.trans h), hdata]; exact congrArg _ (acceptDecrypt_of_key _ hk)
  · rcases h with h | h
    · rw [decode_of_op_encrypt (hop.trans h)]; exact congrArg _ (acceptEncrypt_of_no_key _ hk)
    · rw [decode_of_op_decrypt (hop.trans h)]; exact congrArg _ (acceptDecrypt_of_no_key _ hk)

/-- Settles O30: the response comes with a last cipher edge, which packs `ST` into `RESULT` and ends in `IDLE`; the edge
after it, in `IDLE`, ends the pulse and leaves `RESULT` to reset alone. -/
theorem responsePulseLastsOneCycle : Obligations.ResponsePulseLastsOneCycle := by
  intro s t h
  obtain rfl := edge_eq_of_step h
  refine ⟨edgeWith_rspValid sbox s, fun hv => ?_⟩
  rw [edgeWith_rspValid] at hv
  obtain ⟨hr, hlast⟩ : s.pins.rst = false ∧ (s.fsm = .encS5 ∨ s.fsm = .decS5) := by simpa [rspValidNext] using hv
  have hbusy : s.fsm ≠ .idle := by rcases hlast with h | h <;> simp [h]
  have hidle : (edge s).fsm = .idle := by
    rw [edgeWith_fsm, if_neg (by simp [hr]), if_neg hbusy]
    rcases hlast with h | h <;> rw [h] <;> rfl
  refine ⟨?_, edge (edge s), step_eq _, ?_, edgeWith_result_of_idle sbox hidle⟩
  · rw [edge, edge_busy sbox hr hbusy]; exact fsmStep_result_of_last sbox hlast
  · rw [edgeWith_rspValid, hidle]; simp [rspValidNext]

/-- Settles O31, by `edgeWith_fsm` at this hardware's S-box. -/
theorem commandsFollowFixedPaths : Obligations.CommandsFollowFixedPaths := by
  intro s t h
  rw [← edge_eq_of_step h]
  exact edgeWith_fsm sbox s

/-- Settles O32: the busy time is the distance to `IDLE` at which the command enters its path, and each edge takes one
off it. -/
theorem busyForExactlyFourCycles : Obligations.BusyForExactlyFourCycles := by
  intro i s hf hr busy
  have hentry : (acceptCommand i (s.setRspValid false)).fsm.edgesToIdle = busy := by
    rw [acceptCommand_fsm (s := s.setRspValid false) i hf]
    exact edgesToIdle_entryState s.keyValid i
  have hle : busy ≤ 4 := by unfold busy; split <;> omega
  have hnr : noResetFor 5 (acceptCommand i (s.setRspValid false)) = true :=
    (noResetFor_congr (acceptCommand_inputs i _)).trans hr
  refine ⟨_, exec_of_idle i hf, fun j hj => ?_, ?_⟩
  · obtain ⟨u, hu, hready⟩ := run_cmdReady hnr (j := j) (by omega) (by omega)
    exact ⟨u, hu, hready.trans (decide_eq_false (by omega))⟩
  · obtain ⟨u, hu, hready⟩ := run_cmdReady hnr hle hentry.ge
    exact ⟨u, hu, hready.trans (decide_eq_true hentry.symm)⟩

end Sys2Proof.Machine
end

section
/-! SUPPORT. Exceptions (60_exceptions.md): a run of any length in closed form, and that nothing stops the engine. -/

namespace Sys2Proof.Machine

/-- A run answers the state its edges lead to, whatever the host drives: no edge faults or is refused (R200, R212). -/
theorem run_eq_iterate_edge (n : Nat) (s : State) : run n s = .next (edge^[n] s) := by
  induction n generalizing s with
  | zero => rfl
  | succ n ih => rw [run_succ, ih, Function.iterate_succ_apply]

/-- Settles O39: exec answers the state of the edge at which the command is offered, and a run the state its edges
lead to. -/
theorem nothingStopsTheEngine : Obligations.NothingStopsTheEngine :=
  ⟨fun i s => ⟨_, exec_eq i s⟩, fun n s => ⟨_, run_eq_iterate_edge n s⟩⟩

end Sys2Proof.Machine
end

section
/-! SUPPORT. Reset and hazards (70_reset_and_hazards.md): the reset edge. -/

namespace Sys2Proof.Machine

/-- Settles O36: with `rst` 1 nothing is accepted (R22), and the edge is the reset edge of the next cycle's state. -/
theorem resetEdgeEffect : Obligations.ResetEdgeEffect := by
  intro s hr
  have hstep : step s = .next (resetEdge s.nextCycle) := by rw [step_eq, edge, edge_reset sbox hr]
  exact ⟨accepts_eq_false_of_reset_or_busy (.inl hr), hstep⟩

end Sys2Proof.Machine
end

section
/-! SUPPORT. The key registers over an edge: what the rows of R118 make of the six words, and the invariant of
Safety.lean, which holds after a reset and is kept by every step. -/

namespace Sys2Proof.Machine

/-! ### What the FSM edge leaves alone -/

section
variable (t : SBox) {s : State}

/-- Only a KEYLOAD in progress writes the key words (R118). -/
theorem fsmStep_key_of_not_kx (h : s.fsm.isKx = false) : (fsmStep t s).key = s.key := by
  unfold fsmStep
  split
  case h_2 hf | h_3 hf | h_4 hf | h_5 hf => rw [hf] at h; cases h
  all_goals rfl

/-- Of the FSM edges only the last of a KEYLOAD writes `KEY_VALID` (R118). -/
theorem fsmStep_keyValid_of_ne_kxW5 (h : s.fsm ≠ .kxW5) : (fsmStep t s).keyValid = s.keyValid := by
  unfold fsmStep
  split
  case h_5 hf => exact absurd hf h
  all_goals rfl

/-- Of the FSM edges only those of a cipher write `ST` (R164, R166). -/
theorem fsmStep_st_of_not_cipher (h : s.fsm.isCipher = false) : (fsmStep t s).st = s.st := by
  unfold fsmStep
  split
  case h_1 | h_2 | h_3 | h_4 | h_5 => rfl
  all_goals next hf => rw [hf] at h; cases h

/-- Of the FSM edges only the last of a cipher writes `RESULT` (R164, R166). -/
theorem fsmStep_result_of_not_last (he : s.fsm ≠ .encS5) (hd : s.fsm ≠ .decS5) :
    (fsmStep t s).result = s.result := by
  unfold fsmStep
  split
  case h_9 hf => exact absurd hf he
  case h_13 hf => exact absurd hf hd
  all_goals rfl

end

/-- The path of a KEYLOAD is entered at its start only, never from another state. -/
theorem Fsm.isKx_successor {f : Fsm} (h : f.isKx = false) : f.successor.isKx = false := by
  revert h; cases f <;> decide

/-- Likewise the paths of the ciphers. -/
theorem Fsm.isCipher_successor {f : Fsm} (h : f.isCipher = false) : f.successor.isCipher = false := by
  revert h; cases f <;> decide

/-- One command is in progress at a time. -/
theorem Fsm.isCipher_of_isKx {f : Fsm} (h : f.isKx = true) : f.isCipher = false := by
  revert h; cases f <;> decide

/-- Only a cipher answers (R169). -/
theorem rspValidNext_of_not_cipher {f : Fsm} (h : f.isCipher = false) : rspValidNext false f = false := by
  revert h; cases f <;> decide

/-! ### The words a KEYLOAD has written -/

section
variable (k : KeyWords)

/-- KeyExpansion of the master key in `W0` and `W1` starts from these two words (R113). -/
theorem keyExpansion_master (t : SBox) :
    (keyExpansion t k.master).w0 = k.w0 ∧ (keyExpansion t k.master).w1 = k.w1 :=
  ⟨keyHigh_joinWords _ _, keyLow_joinWords _ _⟩

theorem partlyExpanded_kxW3_iff :
    k.partlyExpanded .kxW3 = true ↔ k.w2 = k.w0 ^^^ subWord sbox (rotWord k.w1) ^^^ rcon1 := by
  obtain ⟨h0, h1⟩ := keyExpansion_master k sbox
  have h2 : (keyExpansion sbox k.master).w2 = k.w0 ^^^ subWord sbox (rotWord k.w1) ^^^ rcon1 := by
    rw [← h0, ← h1]; rfl
  rw [← h2]
  exact beq_iff_eq

theorem partlyExpanded_kxW4_iff :
    k.partlyExpanded .kxW4 = true ↔ k.partlyExpanded .kxW3 = true ∧ k.w3 = k.w2 ^^^ k.w1 := by
  have h3 : (keyExpansion sbox k.master).w3 = (keyExpansion sbox k.master).w2 ^^^ k.w1 := by
    rw [← (keyExpansion_master k sbox).2]; rfl
  simp only [KeyWords.partlyExpanded, Bool.and_eq_true, beq_iff_eq, h3]
  exact and_congr_right fun h2 => by rw [h2]

theorem partlyExpanded_kxW5_iff :
    k.partlyExpanded .kxW5 = true ↔
      k.partlyExpanded .kxW4 = true ∧ k.w4 = k.w2 ^^^ subWord sbox (rotWord k.w3) ^^^ rcon2 := by
  have h4 : (keyExpansion sbox k.master).w4 = (keyExpansion sbox k.master).w2 ^^^
      subWord sbox (rotWord (keyExpansion sbox k.master).w3) ^^^ rcon2 := rfl
  simp only [KeyWords.partlyExpanded, Bool.and_eq_true, beq_iff_eq, h4]
  exact and_congr_right fun h => by rw [h.1, h.2]

theorem expanded_iff :
    k.expanded = true ↔ k.partlyExpanded .kxW5 = true ∧ k.w5 = k.w4 ^^^ k.w3 := by
  obtain ⟨h0, h1⟩ := keyExpansion_master k sbox
  have h5 : (keyExpansion sbox k.master).w5 =
      (keyExpansion sbox k.master).w4 ^^^ (keyExpansion sbox k.master).w3 := rfl
  simp only [KeyWords.expanded, KeyWords.partlyExpanded, Bool.and_eq_true, beq_iff_eq, KeyWords.ext_iff, h0, h1,
    true_and, h5, and_assoc]
  exact and_congr_right fun _ => and_congr_right fun h3 => and_congr_right fun h4 => by rw [h3, h4]

/-- Out of a KEYLOAD nothing is asked of the words. -/
theorem partlyExpanded_of_not_kx {f : Fsm} (h : f.isKx = false) : k.partlyExpanded f = true := by
  cases f
  case kxW3 | kxW4 | kxW5 => cases h
  all_goals rfl

end

/-! ### The invariant, from the kind of state an edge ends in -/

section
variable {s t : State}

/-- In a KEYLOAD the invariant is about the words written. -/
theorem Consistent.of_loading (hf : t.fsm.isKx = true) (hk : t.keyValid = false) (hv : t.rspValid = false)
    (hw : t.key.partlyExpanded t.fsm = true) : Consistent t where
  key_words h := Bool.noConfusion (hk.symm.trans h)
  key_invalid _ := hk
  key_partial := hw
  cipher_key h := Bool.noConfusion ((Fsm.isCipher_of_isKx hf).symm.trans h)
  response h := Bool.noConfusion (hv.symm.trans h)

/-- An edge that writes neither the key words nor `KEY_VALID` and is not in a KEYLOAD has to keep what the invariant
says of a cipher and of its response. -/
theorem Consistent.of_same_key (hs : Consistent s) (hkey : t.key = s.key) (hk : t.keyValid = s.keyValid)
    (hf : t.fsm.isKx = false) (hc : t.fsm.isCipher = true → s.keyValid = true)
    (hv : t.rspValid = true → t.fsm = .idle ∧ s.keyValid = true ∧ t.result = s2b t.st) : Consistent t where
  key_words h := by rw [hkey]; exact hs.key_words (hk ▸ h)
  key_invalid h := Bool.noConfusion (hf.symm.trans h)
  key_partial := partlyExpanded_of_not_kx _ hf
  cipher_key h := hk.trans (hc h)
  response h := by rw [hk]; exact hv h

/-- With no key and in `IDLE` the invariant asks for nothing but that no response stands. -/
theorem Consistent.of_idle_without_key (hf : t.fsm = .idle) (hk : t.keyValid = false) (hv : t.rspValid = false) :
    Consistent t where
  key_words h := Bool.noConfusion (hk.symm.trans h)
  key_invalid _ := hk
  key_partial := partlyExpanded_of_not_kx _ (by rw [hf]; rfl)
  cipher_key h := by rw [hf] at h; cases h
  response h := Bool.noConfusion (hv.symm.trans h)

/-! ### Every kind of edge keeps it -/

theorem consistent_resetEdge (s : State) : Consistent (resetEdge s) := .of_idle_without_key rfl rfl rfl

/-- The host's port values are no part of the invariant. -/
theorem Consistent.nextCycle (hs : Consistent s) : Consistent s.nextCycle :=
  ⟨hs.key_words, hs.key_invalid, hs.key_partial, hs.cipher_key, hs.response⟩

/-- An accepted command keeps the invariant: KEYLOAD gives up the key it replaces, and a cipher starts with a key
only. -/
theorem Consistent.acceptCommand (hs : Consistent s) (hf : s.fsm = .idle) (i : Instr) :
    Consistent (acceptCommand i (latchRspValid s)) := by
  have hv : (latchRspValid s).rspValid = false := by rw [latchRspValid_of_idle hf, State.setRspValid_rspValid]
  have hrsp : (Machine.acceptCommand i (latchRspValid s)).rspValid ≠ true := by
    rw [acceptCommand_rspValid, hv]; exact Bool.false_ne_true
  rcases acceptCommand_cases i (latchRspValid s) with ⟨-, h⟩ | ⟨key, -, h⟩ | ⟨p, -, hk, h⟩ | ⟨c, -, hk, h⟩ <;>
    rw [h] at hrsp ⊢
  · refine hs.of_same_key rfl rfl ?_ ?_ (absurd · hrsp) <;> simp [hf, Fsm.isKx, Fsm.isCipher]
  · exact .of_loading rfl rfl hv rfl
  · exact hs.of_same_key rfl rfl rfl (fun _ => hk) (absurd · hrsp)
  · exact hs.of_same_key rfl rfl rfl (fun _ => hk) (absurd · hrsp)

/-- Out of a KEYLOAD an edge without an acceptance keeps the key; a response comes with the last edge of a cipher,
which has a key and packs `ST` into `RESULT`. -/
theorem Consistent.quietEdge_of_not_kx (hs : Consistent s) (hf : s.fsm.isKx = false) :
    Consistent (quietEdge sbox s) := by
  have hne : s.fsm ≠ .kxW5 := by rintro h; rw [h] at hf; cases hf
  refine hs.of_same_key (fsmStep_key_of_not_kx sbox (s := latchRspValid s) hf)
    (fsmStep_keyValid_of_ne_kxW5 sbox (s := latchRspValid s) hne) ?_ ?_ ?_
  · rw [quietEdge, fsmStep_fsm]; exact Fsm.isKx_successor hf
  · rw [quietEdge, fsmStep_fsm]
    intro hc
    by_contra hk
    have hnc : s.fsm.isCipher = false := by simpa using mt hs.cipher_key hk
    exact Bool.noConfusion ((Fsm.isCipher_successor hnc).symm.trans hc)
  · intro hv
    have hlast : s.fsm = .encS5 ∨ s.fsm = .decS5 := by
      simpa [quietEdge, fsmStep_rspValid, rspValidNext] using hv
    refine ⟨?_, ?_, fsmStep_result_of_last sbox (s := latchRspValid s) hlast⟩
    · rw [quietEdge, fsmStep_fsm, latchRspValid_fsm]; rcases hlast with h | h <;> rw [h] <;> rfl
    · exact hs.cipher_key (by rcases hlast with h | h <;> rw [h] <;> rfl)

/-- In a KEYLOAD each edge adds the next word, and the last one makes the key valid. -/
theorem Consistent.quietEdge_of_kx (hs : Consistent s) (hf : s.fsm.isKx = true) : Consistent (quietEdge sbox s) := by
  have hk : s.keyValid = false := hs.key_invalid hf
  have hw := hs.key_partial
  have hv : (quietEdge sbox s).rspValid = false := by
    rw [quietEdge, fsmStep_rspValid]
    exact rspValidNext_of_not_cipher (Fsm.isCipher_of_isKx hf)
  cases hl : s.fsm <;> rw [hl] at hf hw
  case kxW2 =>
    rw [quietEdge, fsmStep_kxW2 sbox (s := latchRspValid s) hl] at hv ⊢
    exact .of_loading rfl hk hv ((partlyExpanded_kxW3_iff _).mpr rfl)
  case kxW3 =>
    rw [quietEdge, fsmStep_kxW3 sbox (s := latchRspValid s) hl] at hv ⊢
    exact .of_loading rfl hk hv ((partlyExpanded_kxW4_iff _).mpr ⟨hw, rfl⟩)
  case kxW4 =>
    rw [quietEdge, fsmStep_kxW4 sbox (s := latchRspValid s) hl] at hv ⊢
    exact .of_loading rfl hk hv ((partlyExpanded_kxW5_iff _).mpr ⟨hw, rfl⟩)
  case kxW5 =>
    rw [quietEdge, fsmStep_kxW5 sbox (s := latchRspValid s) hl] at hv ⊢
    exact { key_words := fun _ => (expanded_iff _).mpr ⟨hw, rfl⟩
            key_invalid := nofun
            key_partial := rfl
            cipher_key := nofun
            response := fun h => Bool.noConfusion (hv.symm.trans h) }
  all_goals cases hf

theorem Consistent.quietEdge (hs : Consistent s) : Consistent (quietEdge sbox s) := by
  cases hf : s.fsm.isKx
  · exact hs.quietEdge_of_not_kx hf
  · exact hs.quietEdge_of_kx hf

end

/-- Settles O43: the three kinds of edge of `step_cases`. -/
theorem stepKeepsConsistent : Obligations.StepKeepsConsistent := by
  intro s t hs hstep
  rcases step_cases hstep with ⟨-, rfl⟩ | ⟨-, -, hf, rfl⟩ | ⟨-, -, rfl⟩
  · exact consistent_resetEdge _
  · exact hs.nextCycle.acceptCommand hf _
  · exact hs.nextCycle.quietEdge

/-- Settles O42: the step is the reset edge, after which the engine is in `IDLE` without a key. -/
theorem resetMakesAnyStateConsistent : Obligations.ResetMakesAnyStateConsistent := by
  intro s t hr hstep
  rw [← edge_eq_of_step hstep, edge, edge_reset sbox hr]
  exact consistent_resetEdge _

/-- Settles O41: at reset the engine is in `IDLE` without a key. -/
theorem consistentAtReset : Obligations.ConsistentAtReset := .of_idle_without_key rfl rfl rfl

end Sys2Proof.Machine
end

section
/-! SUPPORT. The laws of the datapath (40_substitution.md, 41_key_expansion.md, 42_state_conversion.md,
43_round_primitives.md): each step of the ciphers has its inverse, GFMul is a field's product, and the key schedule and
the round keys nibble by nibble. -/

namespace Sys2Proof.Machine

/-! ### Substitution -/

section
variable (t : SBox) (s : CState)

@[simp] theorem subNib_sboxInverse_subNib : subNib (sboxInverse t) (subNib t.table s) = s := by
  simp only [subNib, sboxInverse_table]

@[simp] theorem subNib_subNib_sboxInverse : subNib t.table (subNib (sboxInverse t) s) = s := by
  simp only [subNib, table_sboxInverse]

end

/-- A substitution that looks at no position can be made before or after positions are exchanged. -/
theorem subNib_sr (f : Nibble → Nibble) (s : CState) : subNib f (sr s) = sr (subNib f s) := rfl

/-- Settles O7: the tables undo each other in every position, and ShiftRows only exchanges positions. -/
theorem subNibblesInvertsAndCommutesWithShiftRows : Obligations.SubNibblesInvertsAndCommutesWithShiftRows :=
  fun t s => ⟨rfl, rfl, subNib_sboxInverse_subNib t s, subNib_subNib_sboxInverse t s, subNib_sr _ s, subNib_sr _ s⟩

/-- Settles O6, by evaluation of the sixteen entries of each table. -/
theorem sboxHoldsTheStandardTable : Obligations.SboxHoldsTheStandardTable := by
  unfold Obligations.SboxHoldsTheStandardTable
  decide

/-! ### Words and nibbles of the key schedule -/

/-- Exchanging the nibbles and substituting each of them are independent. -/
theorem subWord_rotWord (t : SBox) (w : Word) : subWord t (rotWord w) = rotWord (subWord t w) := by
  obtain ⟨hrh, hrl⟩ := rotWord_nibbles w
  obtain ⟨hsh, hsl⟩ := subWord_nibbles t w
  apply word_ext
  · rw [(subWord_nibbles t _).1, hrh, (rotWord_nibbles _).1, hsl]
  · rw [(subWord_nibbles t _).2, hrl, (rotWord_nibbles _).2, hsh]

@[simp] theorem rotWord_rotWord (w : Word) : rotWord (rotWord w) = w := by
  obtain ⟨hh, hl⟩ := rotWord_nibbles w
  apply word_ext
  · rw [(rotWord_nibbles _).1, hl]
  · rw [(rotWord_nibbles _).2, hh]

/-- Settles O8: both laws hold nibble by nibble. -/
theorem subWordCommutesWithRotWord : Obligations.SubWordCommutesWithRotWord :=
  fun t w => ⟨subWord_rotWord t w, rotWord_rotWord w⟩

/-- The function of R113 that makes `W2` and `W4`, by nibbles. -/
theorem nibbles_xor_subWord_rotWord (t : SBox) (a b rcon : Word) :
    highNibble (a ^^^ subWord t (rotWord b) ^^^ rcon) =
      highNibble a ^^^ t.table (lowNibble b) ^^^ highNibble rcon ∧
    lowNibble (a ^^^ subWord t (rotWord b) ^^^ rcon) =
      lowNibble a ^^^ t.table (highNibble b) ^^^ lowNibble rcon := by
  obtain ⟨hsh, hsl⟩ := subWord_nibbles t (rotWord b)
  obtain ⟨hrh, hrl⟩ := rotWord_nibbles b
  constructor
  · rw [highNibble_xor, highNibble_xor, hsh, hrh]
  · rw [lowNibble_xor, lowNibble_xor, hsl, hrl]

/-- The two round constants act on the high nibble alone (R112). -/
theorem nibbles_rcon :
    (highNibble rcon1 = 0x8#4 ∧ lowNibble rcon1 = 0x0#4) ∧ highNibble rcon2 = 0x3#4 ∧ lowNibble rcon2 = 0x0#4 := by
  decide

/-- Settles O9: the rows of KeyExpansion, those of `W2` and `W4` split into nibbles. -/
theorem keyScheduleByNibbles : Obligations.KeyScheduleByNibbles := by
  intro t key k
  obtain ⟨⟨h1, l1⟩, h2, l2⟩ := nibbles_rcon
  have hw2 := nibbles_xor_subWord_rotWord t k.w0 k.w1 rcon1
  have hw4 := nibbles_xor_subWord_rotWord t k.w2 k.w3 rcon2
  rw [h1, l1, BitVec.xor_zero] at hw2
  rw [h2, l2, BitVec.xor_zero] at hw4
  exact ⟨rfl, rfl, hw2.1, hw2.2, rfl, hw4.1, hw4.2, rfl⟩

/-! ### State conversion -/

/-- B2S in terms of the two words of a Block: it takes the high nibbles, then the low ones. -/
theorem b2s_eq_nibbles (n : Block) :
    b2s n = ⟨highNibble (keyHigh n), highNibble (keyLow n), lowNibble (keyHigh n), lowNibble (keyLow n)⟩ := by
  ext i hi <;>
    simp [b2s, highNibble, lowNibble, keyHigh, keyLow, ← Nat.add_assoc, show 4 + i < 8 by omega, show i < 8 by omega]

/-- R56: the State of two words interleaves their nibbles. -/
theorem b2s_joinWords (a b : Word) :
    b2s (joinWords a b) = ⟨highNibble a, highNibble b, lowNibble a, lowNibble b⟩ := by
  rw [b2s_eq_nibbles, keyHigh_joinWords, keyLow_joinWords]

/-- Settles O10: each round key is B2S of two words, and the first two words are the halves of the key. -/
theorem roundKeysInterleaveTheKeyWords : Obligations.RoundKeysInterleaveTheKeyWords :=
  ⟨fun _ => ⟨b2s_joinWords _ _, b2s_joinWords _ _, b2s_joinWords _ _⟩,
    fun _ key => congrArg b2s (joinWords_split key)⟩

/-- The fields of a Block, weighted with their places, add up to it. -/
@[simp] theorem s2b_b2s (x : Block) : s2b (b2s x) = x := by
  obtain ⟨h0, h1, h2, h3⟩ := toNat_b2s x
  apply BitVec.eq_of_toNat_eq
  rw [toNat_s2b, h0, h1, h2, h3]
  omega

/-- A position is smaller than the weight of the next one, so division finds it again. -/
@[simp] theorem b2s_s2b (s : CState) : b2s (s2b s) = s := by
  obtain ⟨h0, h1, h2, h3⟩ := toNat_b2s (s2b s)
  rw [toNat_s2b] at h0 h1 h2 h3
  have b0 := s.s0.isLt
  have b1 := s.s1.isLt
  have b2 := s.s2.isLt
  have b3 := s.s3.isLt
  apply CState.ext <;> apply BitVec.eq_of_toNat_eq
  · rw [h0]; omega
  · rw [h1]; omega
  · rw [h2]; omega
  · rw [h3]; omega

/-- Settles O12, by the arithmetic of R130 and R131. -/
theorem conversionsAreMutualInverses : Obligations.ConversionsAreMutualInverses := ⟨s2b_b2s, b2s_s2b⟩

/-! ### GF(2^4) -/

/-- The loop of R140 is linear in its multiplicand and its running product: each pass shifts the one and adds it to the
other or not, whatever they hold. -/
theorem gfLoop_xor (n : Nat) (a a' b p p' : Nibble) :
    gfLoop n (a ^^^ a') b (p ^^^ p') = gfLoop n a b p ^^^ gfLoop n a' b p' := by
  have hshift : ∀ x y : Nibble, gfShift (x ^^^ y) = gfShift x ^^^ gfShift y := by decide
  induction n generalizing a a' b p p' with
  | zero => rfl
  | succ n ih =>
    simp only [gfLoop, hshift, ← ih]
    split
    · congr 1; ac_rfl
    · rfl

theorem gfMul_xor_left (a b c : Nibble) : gfMul (a ^^^ b) c = gfMul a c ^^^ gfMul b c :=
  gfLoop_xor 4 a b c 0#4 0#4

theorem gfMul_xor_right (a b c : Nibble) : gfMul a (b ^^^ c) = gfMul a b ^^^ gfMul a c := by
  rw [gfMul_comm, gfMul_xor_left, gfMul_comm b, gfMul_comm c]

/-- A product may be shifted through its second factor: the shift is the product with x. -/
theorem gfShift_gfMul (a b : Nibble) : gfShift (gfMul a b) = gfMul a (gfShift b) := by
  revert a b
  decide

/-- Multiplying by `a` before the loop or after it is the same. -/
theorem gfLoop_gfMul (n : Nat) (a b c p : Nibble) :
    gfLoop n (gfMul a b) c (gfMul a p) = gfMul a (gfLoop n b c p) := by
  induction n generalizing b c p with
  | zero => rfl
  | succ n ih => rw [gfLoop, gfLoop, ← ih, gfShift_gfMul, ← gfMul_xor_right, apply_ite (gfMul a)]

theorem gfMul_assoc (a b c : Nibble) : gfMul (gfMul a b) c = gfMul a (gfMul b c) := by
  have h := gfLoop_gfMul 4 a b c 0#4
  rwa [gfMul_comm a 0#4, gfMul_zero_left] at h

/-- Settles O14: the laws follow the loop of R140; the inverses are evaluated. -/
theorem gfMultiplicationIsAField : Obligations.GfMultiplicationIsAField :=
  ⟨gfMul_assoc, gfMul_xor_right, by decide⟩

/-- Settles O15, by evaluation of the 256 products. -/
theorem gfProductsAreTheTable : Obligations.GfProductsAreTheTable := by
  unfold Obligations.GfProductsAreTheTable
  decide

/-! ### MixColumns -/

/-- One position of `IMC(MC(s))` or `MC(IMC(s))` from its column `a`, `b`: the constants satisfy `9 + 2 * 4 = 1` and
`9 * 4 + 2 = 0` (R149). -/
theorem imix_mix (a b : Nibble) :
    gfMul imixA (a ^^^ gfMul mixC b) ^^^ gfMul imixB (b ^^^ gfMul mixC a) = a ∧
    gfMul imixA a ^^^ gfMul imixB b ^^^ gfMul mixC (gfMul imixA b ^^^ gfMul imixB a) = a := by
  have hone : imixA ^^^ gfMul imixB mixC = 1#4 ∧ imixA ^^^ gfMul mixC imixB = 1#4 := by decide
  have hzero : gfMul imixA mixC = imixB ∧ gfMul mixC imixA = imixB := by decide
  simp only [gfMul_xor_right, ← gfMul_assoc, hzero]
  constructor
  · calc _ = (gfMul imixA a ^^^ gfMul (gfMul imixB mixC) a) ^^^ (gfMul imixB b ^^^ gfMul imixB b) := by ac_rfl
      _ = a := by rw [← gfMul_xor_left, hone.1, gfMul_one_left, BitVec.xor_self, BitVec.xor_zero]
  · calc _ = (gfMul imixA a ^^^ gfMul (gfMul mixC imixB) a) ^^^ (gfMul imixB b ^^^ gfMul imixB b) := by ac_rfl
      _ = a := by rw [← gfMul_xor_left, hone.2, gfMul_one_left, BitVec.xor_self, BitVec.xor_zero]

@[simp] theorem imc_mc (s : CState) : imc (mc s) = s :=
  CState.ext (imix_mix _ _).1 (imix_mix _ _).1 (imix_mix _ _).1 (imix_mix _ _).1

@[simp] theorem mc_imc (s : CState) : mc (imc s) = s :=
  CState.ext (imix_mix _ _).2 (imix_mix _ _).2 (imix_mix _ _).2 (imix_mix _ _).2

/-- Settles O17: the positions are the definitions, and the constants make the two matrices inverse. -/
theorem mixColumnsAreMutualInverses : Obligations.MixColumnsAreMutualInverses :=
  fun s => ⟨rfl, rfl, imc_mc s, mc_imc s⟩

theorem mc_ark (s t : CState) : mc (ark s t) = ark (mc s) (mc t) := by
  simp only [mc, ark, gfMul_xor_right]
  congr 1 <;> ac_rfl

theorem imc_ark (s t : CState) : imc (ark s t) = ark (imc s) (imc t) := by
  simp only [imc, ark, gfMul_xor_right]
  congr 1 <;> ac_rfl

/-- Settles O18: GFMul distributes over XOR; the unit images are evaluated. -/
theorem mixColumnsAreLinear : Obligations.MixColumnsAreLinear :=
  ⟨fun s t => ⟨mc_ark s t, imc_ark s t⟩, by decide⟩

/-! ### The cipher functions -/

/-- A round key added twice is gone, on either side. -/
@[simp] theorem ark_ark_cancel_left (k s : CState) : ark k (ark k s) = s := by
  rw [ark_comm k, ark_comm k, ark_ark_cancel_right]

section
variable (t : SBox) (k0 k1 k2 : CState)

/-- Each step of R161 undoes one of R160, the last one first. -/
@[simp] theorem decryptBlock_encryptBlock (p : Block) :
    decryptBlock t k0 k1 k2 (encryptBlock t k0 k1 k2 p) = p := by
  simp only [decryptBlock, decryptState, encryptBlock, encryptState, b2s_s2b, ark_ark_cancel_left, sr_sr,
    subNib_sboxInverse_subNib, imc_mc, s2b_b2s]

@[simp] theorem encryptBlock_decryptBlock (c : Block) :
    encryptBlock t k0 k1 k2 (decryptBlock t k0 k1 k2 c) = c := by
  simp only [decryptBlock, decryptState, encryptBlock, encryptState, b2s_s2b, ark_ark_cancel_left, sr_sr,
    subNib_subNib_sboxInverse, mc_imc, s2b_b2s]

end

/-- Settles O19: for any three round keys, so for those of a master key. -/
theorem decryptUndoesEncrypt : Obligations.DecryptUndoesEncrypt :=
  ⟨decryptBlock_encryptBlock, fun t _ => decryptBlock_encryptBlock t _ _ _⟩

/-- Settles O20: Decrypt is a two-sided inverse. -/
theorem encryptIsBijective : Obligations.EncryptIsBijective := fun t k0 k1 k2 =>
  ⟨⟨Function.LeftInverse.injective (decryptBlock_encryptBlock t k0 k1 k2),
    Function.RightInverse.surjective (encryptBlock_decryptBlock t k0 k1 k2)⟩, encryptBlock_decryptBlock t k0 k1 k2⟩

end Sys2Proof.Machine
end

section
/-! SUPPORT. One edge, register by register (10_state.md section 2; R118, R163 to R170, R231): who writes each register
and what, the rows of the FSM tables, and the port cases of a step. -/

namespace Sys2Proof.Machine

/-! ### The ports and one step -/

/-- The opcode of the command on the ports is `cmd_op`. -/
theorem opcode_decode_pins (s : State) : (decode s.pins.word).opcode = s.pins.cmdOp := by
  rw [opcode_decode, Pins.word, opField_cmdWord]

/-- The word the host offers is the word on the ports. -/
@[simp] theorem Pins.word_offer (cmd : CmdWord) : (Pins.offer cmd).word = cmd := cmdWord_fields cmd

/-- A busy edge without reset in the FSM state `f`. -/
theorem step_of_busy {s : State} {f : Fsm} (hr : s.pins.rst = false) (hs : s.fsm = f) (hf : f ≠ .idle) :
    step s = .next (fsmStep sbox (s.nextCycle.setRspValid (rspValidNext false f))) := by
  rw [step_eq, edge, edge_busy sbox hr (hs ▸ hf), ← hs]; rfl

theorem step_of_reset {s : State} (hr : s.pins.rst = true) : step s = .next (resetEdge s.nextCycle) := by
  rw [step_eq, edge, edge_reset sbox hr]

theorem step_of_no_command {s : State} (hr : s.pins.rst = false) (hv : s.pins.cmdValid = false) :
    step s = .next (quietEdge sbox s.nextCycle) := by
  unfold step stepBy
  rw [if_neg (by simp [hr]), if_neg (by simp [hv])]

theorem cmdReady_of_busy {s : State} (h : s.fsm ≠ .idle) : cmdReady s = false := by
  rw [← Bool.not_eq_true, cmdReady_eq_true_iff]
  exact fun hs => h hs.1

/-- Settles O1, by evaluation of the eight words. -/
theorem decodesWrittenWords : Obligations.DecodesWrittenWords := by
  unfold Obligations.DecodesWrittenWords
  decide

/-- Settles O4: the three bytes hold the word whole, and the ports carry it to `exec`. -/
theorem placedCommandRunsNext : Obligations.PlacedCommandRunsNext := by
  intro s w hw
  have hbytes : w % 2 ^ 24 = w := Nat.mod_eq_of_lt (by omega)
  refine ⟨decode (BitVec.ofNat 18 w), ?_, ?_⟩
  · rw [decodeTableWord, hbytes, decodeRaw_of_lt hw]
  · have hpins : (s.withFetchWord 24 w).pins = Pins.offer (BitVec.ofNat 18 w) :=
      congrArg (fun n => Pins.offer (BitVec.ofNat 18 n)) hbytes
    rw [step_offered (by rw [hpins]; rfl) (by rw [hpins]; rfl), hpins, Pins.word_offer]
    rfl

/-- Settles O26: both are the quiet edge of the same registers. -/
theorem busyEngineTurnsCommandsAway : Obligations.BusyEngineTurnsCommandsAway := by
  intro i s hf
  rw [exec_eq, offeredEdge_busy sbox _ hf]
  exact (step_of_no_command (s := s.setInputs (Pins.quiet :: s.inputs)) rfl rfl).symm

/-- Settles O34: the three port cases of a step. -/
theorem stepRunsTheDecodedCommand : Obligations.StepRunsTheDecodedCommand := by
  refine fun s => ⟨fun i hr hv hi _ => ?_, step_of_no_command, step_of_reset⟩
  rw [step_offered hr hv, hi]

/-- Settles O37: a reset edge ends in `IDLE` with the other three outputs 0. -/
theorem outputsAfterReset : Obligations.OutputsAfterReset := by
  refine ⟨rfl, fun s t hr hstep ht => ?_⟩
  obtain rfl : resetEdge s.nextCycle = t := Host.Outcome.next.inj ((step_of_reset hr).symm.trans hstep)
  have hready : cmdReady (resetEdge s.nextCycle) = true := (cmdReady_eq_true_iff _).mpr ⟨rfl, ht⟩
  rw [outputs, hready]
  rfl

/-! ### The rows of the FSM tables -/

/-- Settles O28: each row is the FSM edge of its state, taken whatever the command ports hold. -/
theorem keyExpansionFsmRows : Obligations.KeyExpansionFsmRows := by
  intro s hs
  have hbusy : s.fsm ≠ .idle := by rintro h; rw [h] at hs; cases hs
  refine ⟨cmdReady_of_busy hbusy, step_of_reset, fun hr => ⟨fun h => ?_, fun h => ?_, fun h => ?_, fun h => ?_⟩⟩ <;>
    rw [step_of_busy hr h nofun]
  · exact congrArg _ (fsmStep_kxW2 sbox h)
  · exact congrArg _ (fsmStep_kxW3 sbox h)
  · exact congrArg _ (fsmStep_kxW4 sbox h)
  · exact congrArg _ (fsmStep_kxW5 sbox h)

/-- Settles O29: as for the key expansion. -/
theorem cipherFsmRows : Obligations.CipherFsmRows := by
  intro s hs
  have hbusy : s.fsm ≠ .idle := by rintro h; rw [h] at hs; cases hs
  refine ⟨cmdReady_of_busy hbusy, step_of_reset, fun hr => ⟨fun h => ?_, fun h => ?_, fun h => ?_, fun h => ?_,
    fun h => ?_, fun h => ?_, fun h => ?_, fun h => ?_⟩⟩ <;> rw [step_of_busy hr h nofun]
  · exact congrArg _ (fsmStep_encS2 sbox h)
  · exact congrArg _ (fsmStep_encS3 sbox h)
  · exact congrArg _ (fsmStep_encS4 sbox h)
  · exact congrArg _ (fsmStep_encS5 sbox h)
  · exact congrArg _ (fsmStep_decS2 sbox h)
  · exact congrArg _ (fsmStep_decS3 sbox h)
  · exact congrArg _ (fsmStep_decS4 sbox h)
  · exact congrArg _ (fsmStep_decS5 sbox h)

/-! ### The writers of each register at an acceptance -/

section
variable (i : Instr) (s : State)

/-- At an acceptance only KEYLOAD writes the key words and `KEY_VALID`. -/
theorem acceptCommand_key_of_not_keyload {i : Instr} (h : i.opcode ≠ 0b01#2) :
    (acceptCommand i s).key = s.key ∧ (acceptCommand i s).keyValid = s.keyValid := by
  rcases acceptCommand_cases i s with ⟨-, ha⟩ | ⟨key, rfl, -⟩ | ⟨_, -, -, ha⟩ | ⟨_, -, -, ha⟩
  · rw [ha]; exact ⟨rfl, rfl⟩
  · exact absurd rfl h
  · rw [ha]; exact ⟨rfl, rfl⟩
  · rw [ha]; exact ⟨rfl, rfl⟩

theorem acceptCommand_keyValid :
    (acceptCommand i s).keyValid = if i.opcode = 0b01#2 then false else s.keyValid := by
  split
  case isTrue h =>
    cases i with
    | keyload key => rfl
    | nop | encrypt | decrypt => cases h
  case isFalse h => exact (acceptCommand_key_of_not_keyload s h).2

/-- At an acceptance only a cipher command with a key writes `ST`. -/
theorem acceptCommand_st_of_no_cipher {i : Instr} {s : State}
    (h : ¬ (s.keyValid = true ∧ (i.opcode = 0b10#2 ∨ i.opcode = 0b11#2))) : (acceptCommand i s).st = s.st := by
  rcases acceptCommand_cases i s with ⟨-, ha⟩ | ⟨_, -, ha⟩ | ⟨_, rfl, hk, -⟩ | ⟨_, rfl, hk, -⟩
  · rw [ha]
  · rw [ha]; rfl
  · exact absurd ⟨hk, .inl rfl⟩ h
  · exact absurd ⟨hk, .inr rfl⟩ h

end

/-! ### The value of each register after an edge -/

section
variable (t : SBox) (s : State)

theorem fsmStep_keyValid : (fsmStep t s).keyValid = if s.fsm = .kxW5 then true else s.keyValid := by
  split
  case isTrue h => rw [fsmStep_kxW5 t h]; rfl
  case isFalse h => exact fsmStep_keyValid_of_ne_kxW5 t h

theorem fsmStep_result :
    (fsmStep t s).result =
      if s.fsm = .encS5 then s2b (ark s.key.k2 s.st)
      else if s.fsm = .decS5 then s2b (ark s.key.k0 s.st) else s.result := by
  split
  case isTrue h => rw [fsmStep_encS5 t h]; rfl
  case isFalse he =>
    split
    case isTrue h => rw [fsmStep_decS5 t h]; rfl
    case isFalse hd => exact fsmStep_result_of_not_last t he hd

/-- Every edge takes the host to its next cycle. -/
@[simp] theorem edgeWith_inputs : (edgeWith t s).inputs = s.inputs.tail := by
  by_cases ha : accepts s = true
  · obtain ⟨hr, hv, hf⟩ := (accepts_eq_true_iff_idle s).mp ha
    rw [edge_accept t hr hv hf]; simp
  · rw [edgeWith_of_not_accepts t (by simpa using ha)]
    split
    · rfl
    · exact fsmStep_inputs t _

/-- The writers of `KEY_VALID` (R27). -/
theorem edgeWith_keyValid :
    (edgeWith t s).keyValid =
      if s.pins.rst then false
      else if s.fsm = .kxW5 then true
      else if accepts s = true ∧ s.pins.cmdOp = 0b01#2 then false else s.keyValid := by
  by_cases ha : accepts s = true
  · obtain ⟨hr, hv, hf⟩ := (accepts_eq_true_iff_idle s).mp ha
    rw [edge_accept t hr hv hf, acceptCommand_keyValid, opcode_decode_pins]
    simp [hr, hf, ha]
  · rw [edgeWith_of_not_accepts t (by simpa using ha)]
    rw [if_neg (c := accepts s = true ∧ _) fun h => ha h.1]
    cases s.pins.rst
    · exact fsmStep_keyValid t (latchRspValid s.nextCycle)
    · rfl

/-- The writers of `RESULT` (R29). -/
theorem edgeWith_result :
    (edgeWith t s).result =
      if s.pins.rst then 0x0000#16
      else if s.fsm = .encS5 then s2b (ark s.key.k2 s.st)
      else if s.fsm = .decS5 then s2b (ark s.key.k0 s.st) else s.result := by
  by_cases ha : accepts s = true
  · obtain ⟨hr, -, hf⟩ := (accepts_eq_true_iff_idle s).mp ha
    rw [edgeWith_result_of_idle t hf hr]
    simp [hr, hf]
  · rw [edgeWith_of_not_accepts t (by simpa using ha)]
    cases s.pins.rst
    · exact fsmStep_result t (latchRspValid s.nextCycle)
    · rfl

variable {s}

/-- The writers of the key words (R25). -/
theorem edgeWith_key_of_no_writer (hk : s.fsm.isKx = false) (ha : ¬ (accepts s = true ∧ s.pins.cmdOp = 0b01#2)) :
    (edgeWith t s).key = s.key := by
  by_cases hacc : accepts s = true
  · obtain ⟨hr, hv, hf⟩ := (accepts_eq_true_iff_idle s).mp hacc
    rw [edge_accept t hr hv hf]
    exact (acceptCommand_key_of_not_keyload _ (by rw [opcode_decode_pins]; exact fun h => ha ⟨hacc, h⟩)).1
  · rw [edgeWith_of_not_accepts t (by simpa using hacc)]
    split
    · rfl
    · exact fsmStep_key_of_not_kx t (s := latchRspValid s.nextCycle) hk

/-- The writers of `ST` (R28). -/
theorem edgeWith_st_of_no_writer (hc : s.fsm.isCipher = false)
    (ha : ¬ (accepts s = true ∧ s.keyValid = true ∧ (s.pins.cmdOp = 0b10#2 ∨ s.pins.cmdOp = 0b11#2))) :
    (edgeWith t s).st = s.st := by
  by_cases hacc : accepts s = true
  · obtain ⟨hr, hv, hf⟩ := (accepts_eq_true_iff_idle s).mp hacc
    rw [edge_accept t hr hv hf]
    exact acceptCommand_st_of_no_cipher (by rw [opcode_decode_pins]; exact fun h => ha ⟨hacc, h⟩)
  · rw [edgeWith_of_not_accepts t (by simpa using hacc)]
    split
    · rfl
    · exact fsmStep_st_of_not_cipher t (s := latchRspValid s.nextCycle) hc

/-- A NOP does not leave `IDLE`. -/
theorem entryState_of_nop {i : Instr} (h : i.opcode = 0b00#2) (keyValid : Bool) : entryState keyValid i = .idle := by
  cases i with
  | nop => rfl
  | keyload | encrypt | decrypt => cases h

/-- The writers of `fsm` (R31). -/
theorem edgeWith_fsm_of_no_writer (hr : s.pins.rst = false) (hf : s.fsm = .idle)
    (ha : ¬ (accepts s = true ∧ s.pins.cmdOp ≠ 0b00#2)) : (edgeWith t s).fsm = .idle := by
  rw [edgeWith_fsm, if_neg (by simp [hr]), if_pos hf]
  split
  case isTrue hv =>
    have hacc : accepts s = true := (accepts_eq_true_iff_idle s).mpr ⟨hr, hv, hf⟩
    refine entryState_of_nop ?_ _
    rw [opcode_decode_pins]
    by_contra h
    exact ha ⟨hacc, h⟩
  case isFalse => rfl

end

/-- Settles O35: the contrapositive of "without a writer the register keeps its value", register by register. -/
theorem registersChangeOnlyByTheirWriters : Obligations.RegistersChangeOnlyByTheirWriters := by
  intro s t hstep
  obtain rfl := edge_eq_of_step hstep
  have hreset (hr : s.pins.rst = true) : edge s = resetEdge s.nextCycle := edge_reset sbox hr
  have hnotReset {P : Prop} (h : s.pins.rst = true → P) (hP : ¬ P) : s.pins.rst = false := by
    simpa using mt h hP
  refine ⟨fun hne => ⟨hnotReset (fun hr => by rw [hreset hr]; rfl) hne, ?_⟩, fun hne => ?_,
    fun hr => by rw [hreset hr]; rfl, fun hne => ⟨hnotReset (fun hr => by rw [hreset hr]; rfl) hne, ?_⟩,
    fun hne => ?_, fun hv => ?_, fun hne => ?_, rfl, rfl⟩
  · by_contra h
    rw [not_or] at h
    exact hne (edgeWith_key_of_no_writer sbox (by simpa using h.1) h.2)
  · by_contra h
    obtain ⟨hr, he, hd⟩ : ¬ s.pins.rst = true ∧ ¬ s.fsm = .encS5 ∧ ¬ s.fsm = .decS5 := by
      rwa [not_or, not_or] at h
    exact hne (by rw [edgeWith_result, if_neg hr, if_neg he, if_neg hd])
  · by_contra h
    rw [not_or] at h
    exact hne (edgeWith_st_of_no_writer sbox (by simpa using h.1) h.2)
  · by_contra h
    obtain ⟨hr, hf, ha⟩ : ¬ s.pins.rst = true ∧ ¬ s.fsm = .kxW5 ∧
        ¬ (accepts s = true ∧ s.pins.cmdOp = 0b01#2) := by rwa [not_or, not_or] at h
    exact hne (by rw [edgeWith_keyValid, if_neg hr, if_neg hf, if_neg ha])
  · rw [edgeWith_rspValid] at hv
    simpa [rspValidNext] using hv
  · by_contra h
    obtain ⟨hr, hf, ha⟩ : ¬ s.pins.rst = true ∧ ¬ s.fsm ≠ .idle ∧
        ¬ (accepts s = true ∧ s.pins.cmdOp ≠ 0b00#2) := by rwa [not_or, not_or] at h
    have hidle : s.fsm = .idle := not_not.mp hf
    exact hne ((edgeWith_fsm_of_no_writer sbox (by simpa using hr) hidle ha).trans hidle.symm)

/-- Settles O44: the writers of O35 are a KEYLOAD, which has no key valid, and the edges of O30 that bring the
response. -/
theorem noTornKeyNorResult : Obligations.NoTornKeyNorResult := by
  intro s t hs hstep
  obtain ⟨hkey, hresult, -⟩ := registersChangeOnlyByTheirWriters s t hstep
  obtain ⟨hv, hpulse⟩ := responsePulseLastsOneCycle s t hstep
  refine ⟨fun hne => ?_, fun hne => ?_⟩
  · obtain ⟨hr, hk | ⟨ha, hop⟩⟩ := hkey hne
    · exact .inl (hs.key_invalid hk)
    · have hf : s.fsm ≠ .kxW5 := by rw [((accepts_eq_true_iff_idle s).mp ha).2.2]; exact nofun
      refine .inr ?_
      rw [← edge_eq_of_step hstep, edgeWith_keyValid, if_neg (by simp [hr]), if_neg hf, if_pos ⟨ha, hop⟩]
  · rcases hresult hne with hr | hlast
    · exact .inl hr
    · cases hr : s.pins.rst
      · have hvt : t.rspValid = true := by rw [hv, hr]; rcases hlast with h | h <;> rw [h] <;> rfl
        exact .inr ⟨hvt, (hpulse hvt).1⟩
      · exact .inl rfl

/-- Settles O40: the distance to `IDLE` is at most four, and each edge without reset takes one off it. -/
theorem backInIdleWithinFourEdges : Obligations.BackInIdleWithinFourEdges := by
  intro s hr
  have hle : s.fsm.edgesToIdle ≤ 4 := by cases s.fsm <;> decide
  obtain ⟨u, hu, hcount, -⟩ := run_edgesToIdle (m := s.fsm.edgesToIdle) (n := 4 - s.fsm.edgesToIdle) (s := s)
    (by rwa [Nat.add_sub_cancel' hle]) le_rfl
  exact ⟨_, u, hle, hu, (Fsm.edgesToIdle_eq_zero_iff _).mp (by rw [hcount, Nat.sub_self])⟩

end Sys2Proof.Machine
end

section
/-! SUPPORT. What the outputs depend on (10_state.md sections 3 and 4): two engines that agree on the status registers,
and on as much of the key words and `ST` as may still be shown, have the same outputs for ever. -/

namespace Sys2Proof.Machine

/-! ### What holds along a run -/

/-- A relation that every edge keeps holds after any number of edges of both engines. -/
theorem rel_iterate_edge {R : State → State → Prop} (hR : ∀ s u, R s u → R (edge s) (edge u)) {s u : State}
    (h : R s u) (n : Nat) : R (edge^[n] s) (edge^[n] u) := by
  induction n generalizing s u with
  | zero => exact h
  | succ n ih => exact ih (hR _ _ h)

/-- What holds of every listed cycle and of a quiet one holds of this cycle and of those to come. -/
theorem all_pins_iff {s : State} {P : Pins → Bool} (hq : P Pins.quiet = true) :
    s.inputs.all P = true ↔ P s.pins = true ∧ s.inputs.tail.all P = true := by
  unfold State.pins
  cases s.inputs with
  | nil => simp [hq]
  | cons p l => simp

/-! ### Engines that agree on all but the key words and `ST` -/

/-- The two engines differ at most in `W0` to `W5` and `ST`. -/
structure SamePublic (s u : State) : Prop where
  fsm : s.fsm = u.fsm
  keyValid : s.keyValid = u.keyValid
  result : s.result = u.result
  rspValid : s.rspValid = u.rspValid
  inputs : s.inputs = u.inputs

theorem samePublic_withUnwritten (s : State) (k : KeyWords) (c : CState) : SamePublic s (s.withUnwritten k c) :=
  ⟨rfl, rfl, rfl, rfl, rfl⟩

namespace SamePublic

variable {s u : State}

theorem pins (h : SamePublic s u) : s.pins = u.pins := by rw [State.pins, State.pins, h.inputs]

theorem accepts (h : SamePublic s u) : Machine.accepts s = Machine.accepts u := by
  rw [Machine.accepts, Machine.accepts, cmdReady, cmdReady, h.pins, h.fsm]

/-- No output shows a key word or `ST` (R37). -/
theorem outputs (h : SamePublic s u) : Machine.outputs s = Machine.outputs u := by
  rw [Machine.outputs, Machine.outputs, cmdReady, cmdReady, h.pins, h.fsm, h.rspValid, h.result, h.keyValid]

/-- An edge reads the key words and `ST` into another register only at the end of a cipher. -/
theorem edge (h : SamePublic s u)
    (hlast : s.fsm = .encS5 ∨ s.fsm = .decS5 → s.key = u.key ∧ s.st = u.st) :
    SamePublic (edge s) (edge u) where
  fsm := by rw [edgeWith_fsm, edgeWith_fsm, h.pins, h.fsm, h.keyValid]
  keyValid := by rw [edgeWith_keyValid, edgeWith_keyValid, h.pins, h.fsm, h.keyValid, h.accepts]
  rspValid := by rw [edgeWith_rspValid, edgeWith_rspValid, h.pins, h.fsm]
  inputs := by rw [edgeWith_inputs, edgeWith_inputs, h.inputs]
  result := by
    by_cases hl : s.fsm = .encS5 ∨ s.fsm = .decS5
    · obtain ⟨hk, hst⟩ := hlast hl
      rw [edgeWith_result, edgeWith_result, h.pins, h.fsm, h.result, hk, hst]
    · obtain ⟨he, hd⟩ := not_or.mp hl
      rw [edgeWith_result, edgeWith_result, ← h.pins, ← h.fsm, if_neg he, if_neg hd, if_neg he, if_neg hd, h.result]

end SamePublic

/-- The last edge of a cipher is taken with the cipher in progress. -/
theorem isCipher_of_last {s : State} (h : s.fsm = .encS5 ∨ s.fsm = .decS5) : s.fsm.isCipher = true := by
  rcases h with h | h <;> rw [h] <;> rfl

/-! ### Without cipher commands (R38) -/

/-- With only NOP and KEYLOAD offered no cipher begins. -/
theorem edge_without_ciphers {s : State} (hc : s.fsm.isCipher = false) (hn : neverCiphers s = true) :
    (edge s).fsm.isCipher = false ∧ neverCiphers (edge s) = true := by
  obtain ⟨hp, htail⟩ := (all_pins_iff (by rfl)).mp hn
  refine ⟨?_, (congrArg (List.all · _) (edgeWith_inputs sbox s)).trans htail⟩
  rw [edgeWith_fsm]
  split
  · rfl
  · split
    · split
      case isTrue hv =>
        have hop : s.pins.cmdOp = 0b00#2 ∨ s.pins.cmdOp = 0b01#2 := by simpa [hv] using hp
        rw [← opcode_decode_pins] at hop
        cases hi : decode s.pins.word with
        | nop | keyload => rfl
        | encrypt | decrypt => rw [hi] at hop; rcases hop with h | h <;> cases h
      case isFalse => rfl
    · exact Fsm.isCipher_successor hc

/-- Settles O46: no cipher is ever in progress, so no edge reads the key words or `ST` into a register that shows. -/
theorem keyWordsCannotBeReadBack : Obligations.KeyWordsCannotBeReadBack := by
  intro s k c n hc hn
  have h := rel_iterate_edge
    (R := fun s u => SamePublic s u ∧ s.fsm.isCipher = false ∧ neverCiphers s = true)
    (fun s u ⟨hsu, hc, hn⟩ =>
      ⟨hsu.edge fun hl => absurd (isCipher_of_last hl) (by simp [hc]), edge_without_ciphers hc hn⟩)
    (And.intro (samePublic_withUnwritten s k c) ⟨hc, hn⟩) n
  exact ⟨_, _, run_eq_iterate_edge n _, run_eq_iterate_edge n _, h.1.outputs⟩

/-! ### After a reset (R41) -/

/-- The two engines agree on what may still be read of the key words and `ST`: all of a valid key, the words a KEYLOAD
has written so far, and in a cipher the key and the State. -/
def SameReadable (s u : State) : Prop :=
  match s.fsm with
  | .idle => s.keyValid = true → s.key = u.key
  | .kxW2 => s.key.w0 = u.key.w0 ∧ s.key.w1 = u.key.w1
  | .kxW3 => s.key.w0 = u.key.w0 ∧ s.key.w1 = u.key.w1 ∧ s.key.w2 = u.key.w2
  | .kxW4 => s.key.w0 = u.key.w0 ∧ s.key.w1 = u.key.w1 ∧ s.key.w2 = u.key.w2 ∧ s.key.w3 = u.key.w3
  | .kxW5 =>
    s.key.w0 = u.key.w0 ∧ s.key.w1 = u.key.w1 ∧ s.key.w2 = u.key.w2 ∧ s.key.w3 = u.key.w3 ∧ s.key.w4 = u.key.w4
  | .encS2 | .encS3 | .encS4 | .encS5 | .decS2 | .decS3 | .decS4 | .decS5 => s.key = u.key ∧ s.st = u.st

section
variable {s u : State}

theorem sameReadable_of_idle (hf : s.fsm = .idle) (h : s.keyValid = true → s.key = u.key) : SameReadable s u := by
  unfold SameReadable
  rwa [hf]

theorem SameReadable.of_cipher (h : SameReadable s u) (hf : s.fsm.isCipher = true) :
    s.key = u.key ∧ s.st = u.st := by
  unfold SameReadable at h
  split at h
  case h_1 hs | h_2 hs | h_3 hs | h_4 hs | h_5 hs => rw [hs] at hf; cases hf
  all_goals exact h

/-- The rows of the FSM tables read only what the two engines agree on, and write what they agree on next. -/
theorem SameReadable.fsmStep (t : SBox) (h : SameReadable s u) (hf : s.fsm = u.fsm) :
    SameReadable (fsmStep t s) (fsmStep t u) := by
  unfold SameReadable at h
  cases hs : s.fsm <;> rw [hs] at h hf
  case idle =>
    rw [fsmStep_idle t hs, fsmStep_idle t hf.symm]
    exact sameReadable_of_idle hs h
  case kxW2 =>
    obtain ⟨h0, h1⟩ := h
    rw [fsmStep_kxW2 t hs, fsmStep_kxW2 t hf.symm]
    exact ⟨h0, h1, by simp [edgeKxW2, h0, h1]⟩
  case kxW3 =>
    obtain ⟨h0, h1, h2⟩ := h
    rw [fsmStep_kxW3 t hs, fsmStep_kxW3 t hf.symm]
    exact ⟨h0, h1, h2, by simp [edgeKxW3, h1, h2]⟩
  case kxW4 =>
    obtain ⟨h0, h1, h2, h3⟩ := h
    rw [fsmStep_kxW4 t hs, fsmStep_kxW4 t hf.symm]
    exact ⟨h0, h1, h2, h3, by simp [edgeKxW4, h2, h3]⟩
  case kxW5 =>
    obtain ⟨h0, h1, h2, h3, h4⟩ := h
    rw [fsmStep_kxW5 t hs, fsmStep_kxW5 t hf.symm]
    exact fun _ => KeyWords.ext h0 h1 h2 h3 h4 (by simp [edgeKxW5, h3, h4])
  case encS2 => rw [fsmStep_encS2 t hs, fsmStep_encS2 t hf.symm]; exact ⟨h.1, by simp [edgeEncS2, h.2]⟩
  case encS3 => rw [fsmStep_encS3 t hs, fsmStep_encS3 t hf.symm]; exact ⟨h.1, by simp [edgeEncS3, h]⟩
  case encS4 => rw [fsmStep_encS4 t hs, fsmStep_encS4 t hf.symm]; exact ⟨h.1, by simp [edgeEncS4, h.2]⟩
  case encS5 => rw [fsmStep_encS5 t hs, fsmStep_encS5 t hf.symm]; exact fun _ => h.1
  case decS2 => rw [fsmStep_decS2 t hs, fsmStep_decS2 t hf.symm]; exact ⟨h.1, by simp [edgeDecS2, h.2]⟩
  case decS3 => rw [fsmStep_decS3 t hs, fsmStep_decS3 t hf.symm]; exact ⟨h.1, by simp [edgeDecS3, h]⟩
  case decS4 => rw [fsmStep_decS4 t hs, fsmStep_decS4 t hf.symm]; exact ⟨h.1, by simp [edgeDecS4, h.2]⟩
  case decS5 => rw [fsmStep_decS5 t hs, fsmStep_decS5 t hf.symm]; exact fun _ => h.1

/-- A KEYLOAD begins with the same two words, and a cipher with a valid key, on which the two engines agree. -/
theorem SameReadable.acceptCommand (i : Instr) (h : SameReadable s u) (hf : s.fsm = .idle)
    (hk : s.keyValid = u.keyValid) :
    SameReadable (acceptCommand i s) (acceptCommand i u) := by
  have hkey : s.keyValid = true → s.key = u.key := by unfold SameReadable at h; rwa [hf] at h
  cases i with
  | nop => exact h
  | keyload key => exact ⟨rfl, rfl⟩
  | encrypt p =>
    change SameReadable (acceptEncrypt p s) (acceptEncrypt p u)
    cases hv : s.keyValid
    · rwa [acceptEncrypt_of_no_key p hv, acceptEncrypt_of_no_key p (hk ▸ hv)]
    · rw [acceptEncrypt_of_key p hv, acceptEncrypt_of_key p (hk ▸ hv)]
      exact ⟨hkey hv, by simp [hkey hv]⟩
  | decrypt c =>
    change SameReadable (acceptDecrypt c s) (acceptDecrypt c u)
    cases hv : s.keyValid
    · rwa [acceptDecrypt_of_no_key c hv, acceptDecrypt_of_no_key c (hk ▸ hv)]
    · rw [acceptDecrypt_of_key c hv, acceptDecrypt_of_key c (hk ▸ hv)]
      exact ⟨hkey hv, by simp [hkey hv]⟩

/-- Neither the host's port values nor `RSP_VALID` is part of the agreement. -/
theorem SameReadable.latch (h : SameReadable s u) :
    SameReadable (latchRspValid s.nextCycle) (latchRspValid u.nextCycle) := h

theorem SameReadable.edge (h : SameReadable s u) (hp : SamePublic s u) : SameReadable (edge s) (edge u) := by
  by_cases ha : accepts s = true
  · obtain ⟨hr, hv, hf⟩ := (accepts_eq_true_iff_idle s).mp ha
    rw [Machine.edge, Machine.edge, edge_accept sbox hr hv hf,
      edge_accept sbox (hp.pins ▸ hr) (hp.pins ▸ hv) (hp.fsm ▸ hf), ← hp.pins]
    exact h.latch.acceptCommand _ hf hp.keyValid
  · have ha : accepts s = false := by simpa using ha
    rw [Machine.edge, Machine.edge, edgeWith_of_not_accepts sbox ha, edgeWith_of_not_accepts sbox (hp.accepts ▸ ha),
      ← hp.pins]
    split
    · exact sameReadable_of_idle rfl nofun
    · exact h.latch.fsmStep sbox hp.fsm

end

/-- From `IDLE` without a key, nothing of the key words and `ST` is read before it is written (R41). -/
theorem outputs_iterate_edge_withUnwritten {s : State} (hf : s.fsm = .idle) (hk : s.keyValid = false) (k : KeyWords)
    (c : CState) (n : Nat) : outputs (edge^[n] s) = outputs (edge^[n] (s.withUnwritten k c)) := by
  have h := rel_iterate_edge (R := fun s u => SamePublic s u ∧ SameReadable s u)
    (fun s u ⟨hp, hr⟩ => ⟨hp.edge fun hl => hr.of_cipher (isCipher_of_last hl), hr.edge hp⟩)
    (And.intro (samePublic_withUnwritten s k c) (sameReadable_of_idle hf (by simp [hk]))) n
  exact h.1.outputs

/-- Settles O45, by `outputs_iterate_edge_withUnwritten`. -/
theorem unwrittenRegistersAreUnobservable : Obligations.UnwrittenRegistersAreUnobservable := by
  intro s k c n hf hk
  exact ⟨_, _, run_eq_iterate_edge n _, run_eq_iterate_edge n _, outputs_iterate_edge_withUnwritten hf hk k c n⟩

/-! ### Without a KEYLOAD (R176, R232) -/

/-- An engine in `IDLE` without a key stays so at every edge at which no KEYLOAD is offered, with no response. -/
theorem edge_without_key {s : State} (hf : s.fsm = .idle) (hk : s.keyValid = false) (hn : neverLoads s = true) :
    (edge s).fsm = .idle ∧ (edge s).keyValid = false ∧ neverLoads (edge s) = true ∧ (edge s).rspValid = false ∧
    ((edge s).result = s.result ∨ (edge s).result = 0x0000#16) := by
  obtain ⟨hp, htail⟩ := (all_pins_iff (by rfl)).mp hn
  refine ⟨?_, ?_, (congrArg (List.all · _) (edgeWith_inputs sbox s)).trans htail, ?_, ?_⟩
  · rw [edgeWith_fsm, if_pos hf, hk]
    split
    · rfl
    · split
      case isTrue hv =>
        have hop : s.pins.cmdOp ≠ 0b01#2 := by simpa [hv] using hp
        rw [← opcode_decode_pins] at hop
        cases hi : decode s.pins.word with
        | keyload => rw [hi] at hop; exact absurd rfl hop
        | nop | encrypt | decrypt => rfl
      case isFalse => rfl
  · rw [edgeWith_keyValid, hf, hk]; simp
  · rw [edgeWith_rspValid, hf]; simp [rspValidNext]
  · cases hr : s.pins.rst
    · exact .inl (edgeWith_result_of_idle sbox hf hr)
    · exact .inr (by rw [edge, edge_reset sbox hr]; rfl)

/-- Settles O38, edge by edge. -/
theorem noResponseWithoutKeyload : Obligations.NoResponseWithoutKeyload := by
  intro s n hf hk hn
  induction n generalizing s with
  | zero =>
    obtain ⟨hf', -, -, hv, hres⟩ := edge_without_key hf hk hn
    exact ⟨edge s, run_succ 0 s, hv, hf', hres⟩
  | succ n ih =>
    obtain ⟨hf', hk', hn', -, hres⟩ := edge_without_key hf hk hn
    obtain ⟨t, ht, hv, hft, hrt⟩ := ih (edge s) hf' hk' hn'
    refine ⟨t, by rw [run_succ, ht], hv, hft, ?_⟩
    rcases hrt with h | h
    · rwa [h]
    · exact .inr h

/-! ### Power-up (R40, R234) -/

/-- Settles O56: the two kinds of edge before the first reset is over, and `step` after it. -/
theorem unresetEngineIsUnspecified : Obligations.UnresetEngineIsUnspecified :=
  ⟨fun seen _ => ⟨rfl, rfl, Chip.step_unreset seen, Chip.step_reset seen⟩,
    fun s => ⟨rfl, edge s, step_eq s, Chip.step_running s⟩⟩

/-- Cycles without reset only pass by. -/
theorem Chip.run_unreset (before rest seen : List Pins) (h : ∀ p ∈ before, p.rst = false) :
    Chip.run before.length (.unreset seen (before ++ rest)) = .next (.unreset (before.reverse ++ seen) rest) := by
  induction before generalizing seen with
  | nil => rfl
  | cons p before ih =>
    have hp : ((p :: before ++ rest).headD Pins.quiet).rst = false := h p List.mem_cons_self
    rw [List.length_cons, Chip.run, Chip.step_unreset seen hp, List.reverse_cons, List.append_assoc]
    exact ih (p :: seen) fun q hq => h q (List.mem_cons_of_mem p hq)

/-- Settles O57: the cycles before the first reset pass by, its edge leaves an engine that differs from the one started
at `State.reset` in the key words and `ST` alone, and these do not show. -/
theorem firstResetEndsPowerUp : Obligations.FirstResetEndsPowerUp := by
  intro before after r hbefore hr boot v s
  have hboot : Chip.run (before.length + 1) boot = .next (.running s) := by
    have hwait := Chip.run_unreset before (r :: after) [] hbefore
    rw [List.append_nil] at hwait
    refine (Chip.run_add before.length 1 hwait).trans ?_
    rw [Chip.run, Chip.step_reset _ (inputs := r :: after) hr]
    rfl
  refine ⟨fun n hn => ?_, hboot, fun n => ?_⟩
  · have h := Chip.run_unreset (before.take n) (before.drop n ++ r :: after) []
      fun p hp => hbefore p (List.mem_of_mem_take hp)
    rwa [← List.append_assoc, List.take_append_drop, List.length_take_of_le hn, List.append_nil] at h
  · have hrun := Chip.run_running n (run_eq_iterate_edge n s)
    exact ⟨_, _, (Chip.run_add _ n hboot).trans hrun, run_eq_iterate_edge n _,
      (outputs_iterate_edge_withUnwritten (s := { State.reset with inputs := after }) rfl rfl v.key v.st n).symm⟩

end Sys2Proof.Machine
end

section
/-! SUPPORT. A whole command edge by edge and as one transaction (44_cipher_commands.md R175): the busy edges of a
command, for any S-box, and sequences of commands. -/

namespace Sys2Proof.Machine

/-! ### Busy edges -/

section
variable (t : SBox)

/-- The runs of this hardware are those of its S-box. -/
theorem run_eq_runWith (n : Nat) (s : State) : run n s = runWith sbox n s := by
  induction n generalizing s with
  | zero => rfl
  | succ n ih => rw [run_succ, runWith_succ, ih]

/-- The FSM edge does not read the host's port values. -/
theorem fsmStep_setInputs (s : State) (l : List Pins) : fsmStep t (s.setInputs l) = (fsmStep t s).setInputs l := by
  rw [fsmStep, fsmStep, State.setInputs_fsm]
  split <;> rfl

/-- Nor do any number of edges that accept nothing. -/
theorem iterate_quietEdge_setInputs (n : Nat) (s : State) (l : List Pins) :
    (quietEdge t)^[n] (s.setInputs l) = ((quietEdge t)^[n] s).setInputs l :=
  (Function.Commute.iterate_left (g := (·.setInputs l)) (fun s => fsmStep_setInputs t (latchRspValid s) l) n) s

/-- While a command is in progress and no reset comes, the engine goes on by itself (R204, R243). -/
theorem runWith_busy {n : Nat} {s : State} (hr : noResetFor n s = true) (hn : n ≤ s.fsm.edgesToIdle) :
    runWith t n s = .next (((quietEdge t)^[n] s).setInputs (s.inputs.drop n)) := by
  induction n generalizing s with
  | zero => rfl
  | succ n ih =>
    obtain ⟨hrst, hrest⟩ := noResetFor_succ hr
    have hbusy : s.fsm ≠ .idle := by rw [Ne, ← Fsm.edgesToIdle_eq_zero_iff]; omega
    have hedge : edgeWith t s = (quietEdge t s).setInputs s.inputs.tail :=
      (edge_busy t hrst hbusy).trans (fsmStep_setInputs t (latchRspValid s) _)
    have hleft : (edgeWith t s).fsm.edgesToIdle = s.fsm.edgesToIdle - 1 := by
      rw [edgeWith_fsm, if_neg (by simp [hrst]), if_neg hbusy, Fsm.edgesToIdle_successor]
    have hinputs : (edgeWith t s).inputs = s.nextCycle.inputs := edgeWith_inputs t s
    rw [runWith_succ, ih (by rwa [noResetFor_congr hinputs]) (by omega), hedge, iterate_quietEdge_setInputs]
    simp only [State.setInputs_inputs, List.drop_tail]
    rfl

/-! ### The transaction of a command, by whether a key is loaded -/

section
variable {s : State} (b : Block)

theorem transact_encrypt_of_key (h : s.keyValid = true) :
    transact t (.encrypt b) s =
      ((s.setSt (encryptState t s.key.k0 s.key.k1 s.key.k2 b)).setResult
        (s2b (encryptState t s.key.k0 s.key.k1 s.key.k2 b))).setRspValid true := if_pos h

theorem transact_decrypt_of_key (h : s.keyValid = true) :
    transact t (.decrypt b) s =
      ((s.setSt (decryptState t s.key.k0 s.key.k1 s.key.k2 b)).setResult
        (s2b (decryptState t s.key.k0 s.key.k1 s.key.k2 b))).setRspValid true := if_pos h

/-- What the host sees and may use after an ENCRYPT with a key. -/
theorem transact_encrypt_registers (h : s.keyValid = true) :
    (transact t (.encrypt b) s).key = s.key ∧ (transact t (.encrypt b) s).keyValid = true ∧
    (transact t (.encrypt b) s).rspValid = true ∧
    (transact t (.encrypt b) s).result = encryptBlock t s.key.k0 s.key.k1 s.key.k2 b ∧
    (transact t (.encrypt b) s).inputs = s.inputs := by
  rw [transact_encrypt_of_key t b h]
  exact ⟨rfl, h, rfl, rfl, rfl⟩

/-- The same after a DECRYPT. -/
theorem transact_decrypt_registers (h : s.keyValid = true) :
    (transact t (.decrypt b) s).key = s.key ∧ (transact t (.decrypt b) s).keyValid = true ∧
    (transact t (.decrypt b) s).rspValid = true ∧
    (transact t (.decrypt b) s).result = decryptBlock t s.key.k0 s.key.k1 s.key.k2 b ∧
    (transact t (.decrypt b) s).inputs = s.inputs := by
  rw [transact_decrypt_of_key t b h]
  exact ⟨rfl, h, rfl, rfl, rfl⟩

theorem busyTime_encrypt_of_key (h : s.keyValid = true) : busyTime (.encrypt b) s = 4 := if_pos h
theorem busyTime_decrypt_of_key (h : s.keyValid = true) : busyTime (.decrypt b) s = 4 := if_pos h

end

/-- A command keeps the engine busy for four cycles, or it is over at its accepting edge with no other effect than the
end of a response pulse. -/
theorem busyTime_cases (i : Instr) (s : State) :
    busyTime i s = 4 ∨
    busyTime i s = 0 ∧ transact t i s = s.setRspValid false ∧
      acceptCommand i (s.setRspValid false) = s.setRspValid false := by
  cases i with
  | nop => exact .inr ⟨rfl, rfl, rfl⟩
  | keyload key => exact .inl rfl
  | encrypt p =>
    cases hk : s.keyValid with
    | true => exact .inl (busyTime_encrypt_of_key p hk)
    | false => exact .inr ⟨if_neg (by simp [hk]), if_neg (by simp [hk]), acceptEncrypt_of_no_key p hk⟩
  | decrypt c =>
    cases hk : s.keyValid with
    | true => exact .inl (busyTime_decrypt_of_key c hk)
    | false => exact .inr ⟨if_neg (by simp [hk]), if_neg (by simp [hk]), acceptDecrypt_of_no_key c hk⟩

/-- The busy time is the length of the path the command enters. -/
theorem busyTime_eq_edgesToIdle (i : Instr) {s : State} (hf : s.fsm = .idle) :
    busyTime i s = (acceptCommand i (s.setRspValid false)).fsm.edgesToIdle := by
  rw [acceptCommand_fsm (s := s.setRspValid false) i hf]
  cases i with
  | nop | keyload => rfl
  | encrypt | decrypt => cases hk : s.keyValid <;> simp [busyTime, entryState, hk] <;> rfl

theorem transact_fsm (i : Instr) (s : State) : (transact t i s).fsm = s.fsm := by
  cases i with
  | nop | keyload => rfl
  | encrypt | decrypt => exact (apply_ite State.fsm _ _ _).trans (ite_self _)

theorem transact_setInputs (i : Instr) (s : State) (l : List Pins) :
    transact t i (s.setInputs l) = (transact t i s).setInputs l := by
  cases i with
  | nop | keyload => rfl
  | encrypt | decrypt =>
    cases hk : s.keyValid <;> simp only [transact, State.setInputs_keyValid, hk, if_true] <;> rfl

/-- The FSM edge does not read `RSP_VALID`. -/
theorem fsmStep_setRspValid (s : State) (b : Bool) : fsmStep t (s.setRspValid b) = (fsmStep t s).setRspValid b := by
  rw [fsmStep, fsmStep, State.setRspValid_fsm]
  split <;> rfl

/-- So R169's write may come after it. -/
theorem quietEdge_eq (s : State) : quietEdge t s = (fsmStep t s).setRspValid (rspValidNext false s.fsm) :=
  fsmStep_setRspValid t s _

/-- Of several edges that accept nothing the last decides `RSP_VALID`. -/
theorem iterate_quietEdge_eq (n : Nat) (s : State) :
    (quietEdge t)^[n + 1] s =
      ((fsmStep t)^[n + 1] s).setRspValid (rspValidNext false (Fsm.successor^[n] s.fsm)) := by
  induction n with
  | zero => exact quietEdge_eq t s
  | succ n ih =>
    have hfsm : ((fsmStep t)^[n + 1] s).fsm = Fsm.successor^[n + 1] s.fsm :=
      Function.Semiconj.iterate_right (f := State.fsm) (fsmStep_fsm t) (n + 1) s
    rw [Function.iterate_succ_apply', ih, quietEdge_eq, fsmStep_setRspValid, State.setRspValid_fsm, hfsm,
      Function.iterate_succ_apply' (fsmStep t) (n + 1)]
    rfl

section
variable {s : State}

/-- The four rows of R118. -/
theorem iterate_fsmStep_kxW2 (h : s.fsm = .kxW2) :
    (fsmStep t)^[4] s = edgeKxW5 (edgeKxW4 t (edgeKxW3 (edgeKxW2 t s))) := by
  change fsmStep t (fsmStep t (fsmStep t (fsmStep t s))) = _
  rw [fsmStep_kxW2 t h, fsmStep_kxW3 t (s := edgeKxW2 t s) rfl, fsmStep_kxW4 t (s := edgeKxW3 _) rfl,
    fsmStep_kxW5 t (s := edgeKxW4 t _) rfl]

/-- The four rows of R164. -/
theorem iterate_fsmStep_encS2 (h : s.fsm = .encS2) :
    (fsmStep t)^[4] s = edgeEncS5 (edgeEncS4 t (edgeEncS3 (edgeEncS2 t s))) := by
  change fsmStep t (fsmStep t (fsmStep t (fsmStep t s))) = _
  rw [fsmStep_encS2 t h, fsmStep_encS3 t (s := edgeEncS2 t s) rfl, fsmStep_encS4 t (s := edgeEncS3 _) rfl,
    fsmStep_encS5 t (s := edgeEncS4 t _) rfl]

/-- The four rows of R166. -/
theorem iterate_fsmStep_decS2 (h : s.fsm = .decS2) :
    (fsmStep t)^[4] s = edgeDecS5 (edgeDecS4 t (edgeDecS3 (edgeDecS2 t s))) := by
  change fsmStep t (fsmStep t (fsmStep t (fsmStep t s))) = _
  rw [fsmStep_decS2 t h, fsmStep_decS3 t (s := edgeDecS2 t s) rfl, fsmStep_decS4 t (s := edgeDecS3 _) rfl,
    fsmStep_decS5 t (s := edgeDecS4 t _) rfl]

end

/-- The rows of R118, R164 and R166 one after the other have the whole effect of the command (R175). -/
theorem iterate_quietEdge_acceptCommand (i : Instr) {s : State} (hf : s.fsm = .idle) :
    (quietEdge t)^[busyTime i s] (acceptCommand i (s.setRspValid false)) = transact t i s := by
  rcases busyTime_cases t i s with hb | ⟨hb, ht, ha⟩
  · rw [hb, iterate_quietEdge_eq]
    cases i with
    | nop => cases hb
    | keyload key =>
      rw [iterate_fsmStep_kxW2 t rfl]
      exact State.ext rfl rfl rfl rfl rfl hf.symm rfl
    | encrypt p =>
      have hk : s.keyValid = true := by by_contra h; rw [busyTime, if_neg h] at hb; cases hb
      have ha : acceptCommand (.encrypt p) (s.setRspValid false) = _ := acceptEncrypt_of_key p hk
      rw [ha, transact_encrypt_of_key t p hk, iterate_fsmStep_encS2 t rfl]
      ext1
      case rspValid => rw [State.setRspValid_rspValid, State.setRspValid_rspValid]; rfl
      all_goals simp [edgeEncS2, edgeEncS3, edgeEncS4, edgeEncS5, encryptState, hf]
    | decrypt c =>
      have hk : s.keyValid = true := by by_contra h; rw [busyTime, if_neg h] at hb; cases hb
      have ha : acceptCommand (.decrypt c) (s.setRspValid false) = _ := acceptDecrypt_of_key c hk
      rw [ha, transact_decrypt_of_key t c hk, iterate_fsmStep_decS2 t rfl]
      ext1
      case rspValid => rw [State.setRspValid_rspValid, State.setRspValid_rspValid]; rfl
      all_goals simp [edgeDecS2, edgeDecS3, edgeDecS4, edgeDecS5, decryptState, hf]
  · rw [hb, ht]; exact ha

/-- A command accepted in `IDLE` ends, after its busy edges without reset, in the state of its transaction (R175). -/
theorem runWith_acceptCommand (i : Instr) {s : State} (hf : s.fsm = .idle)
    (hr : noResetFor (busyTime i s) s = true) :
    runWith t (busyTime i s) (acceptCommand i (s.setRspValid false)) =
      .next ((transact t i s).setInputs (s.inputs.drop (busyTime i s))) := by
  have hinputs : (acceptCommand i (s.setRspValid false)).inputs = s.inputs := acceptCommand_inputs i _
  rw [runWith_busy t (by rwa [noResetFor_congr hinputs]) (busyTime_eq_edgesToIdle i hf).le,
    iterate_quietEdge_acceptCommand t i hf, hinputs]

/-- In `IDLE` a command clears the response and performs its row of R170, on an engine with any S-box. -/
theorem execWith_of_idle (i : Instr) {s : State} (h : s.fsm = .idle) :
    execWith t i s = .next (acceptCommand i (s.setRspValid false)) := by
  rw [execWith_eq, offeredEdge_idle t _ h, latchRspValid_of_idle h]

end

/-- The same run on this hardware. -/
theorem run_acceptCommand (i : Instr) {s : State} (hf : s.fsm = .idle) (hr : noResetFor (busyTime i s) s = true) :
    run (busyTime i s) (acceptCommand i (s.setRspValid false)) =
      .next ((transact sbox i s).setInputs (s.inputs.drop (busyTime i s))) :=
  (run_eq_runWith _ _).trans (runWith_acceptCommand sbox i hf hr)

/-- Settles O55: the parametrised definitions at `sbox` are the hardware's, and `runWith_acceptCommand` is stated for
every S-box. -/
theorem everySboxRunsOnTheMachine : Obligations.EverySboxRunsOnTheMachine :=
  ⟨fun i s => (execWith_eq sbox i s).trans (exec_eq i s).symm, fun s => (stepWith_eq sbox s).trans (step_eq s).symm,
    fun x i _ hf hr => ⟨_, execWith_of_idle x i hf, runWith_acceptCommand x i hf hr⟩⟩

/-- Settles O47, by `run_acceptCommand`. -/
theorem commandRefinesTransaction : Obligations.CommandRefinesTransaction :=
  fun i _ hf hr => ⟨_, exec_of_idle i hf, run_acceptCommand i hf hr⟩

/-! ### The three long commands -/

/-- Settles O22: the transaction of a KEYLOAD, whose words are those of KeyExpansion. -/
theorem keyloadCompletes : Obligations.KeyloadCompletes :=
  fun key _ hf hr => ⟨exec_of_idle (.keyload key) hf, run_acceptCommand (.keyload key) hf hr⟩

/-- Settles O23: the transaction of an ENCRYPT with a key. -/
theorem encryptCompletes : Obligations.EncryptCompletes := by
  intro p s hf hk hr
  have hb : busyTime (.encrypt p) s = 4 := busyTime_encrypt_of_key p hk
  have haccept := acceptEncrypt_of_key p (s := s.setRspValid false) hk
  have hrun := run_acceptCommand (.encrypt p) hf (by rwa [hb])
  rw [hb, transact_encrypt_of_key sbox p hk] at hrun
  exact ⟨rfl, (exec_of_idle _ hf).trans (congrArg _ haccept), (congrArg (run 4) haccept).symm.trans hrun⟩

/-- Settles O24: the transaction of a DECRYPT with a key. -/
theorem decryptCompletes : Obligations.DecryptCompletes := by
  intro c s hf hk hr
  have hb : busyTime (.decrypt c) s = 4 := busyTime_decrypt_of_key c hk
  have haccept := acceptDecrypt_of_key c (s := s.setRspValid false) hk
  have hrun := run_acceptCommand (.decrypt c) hf (by rwa [hb])
  rw [hb, transact_decrypt_of_key sbox c hk] at hrun
  exact ⟨rfl, (exec_of_idle _ hf).trans (congrArg _ haccept), (congrArg (run 4) haccept).symm.trans hrun⟩

/-! ### Sequences of commands -/

/-- An idle engine with no response pending lets quiet cycles pass. -/
theorem run_quiet_of_idle {s : State} (hf : s.fsm = .idle) (hv : s.rspValid = false) (n : Nat) (l : List Pins) :
    run n (s.setInputs (List.replicate n Pins.quiet ++ l)) = .next (s.setInputs l) := by
  induction n with
  | zero => rfl
  | succ n ih =>
    have hedge : edge (s.setInputs (List.replicate (n + 1) Pins.quiet ++ l)) =
        s.setInputs (List.replicate n Pins.quiet ++ l) := by
      rw [edge, edge_idle_quiet sbox (by rfl) (by rfl) (by exact hf), latchRspValid_of_idle (by exact hf)]
      exact State.ext rfl rfl rfl rfl hv.symm rfl rfl
    rw [run_succ, hedge, ih]

/-- A command in a cycle of its own and four quiet cycles after it are one transaction. -/
theorem run_spaced_command (i : Instr) {s : State} (hf : s.fsm = .idle) (l : List Pins) :
    run 5 (s.setInputs (Pins.offer (encode i) :: (List.replicate 4 Pins.quiet ++ l))) =
      .next ((transact sbox i s).setInputs l) := by
  let s' := s.setInputs (List.replicate 4 Pins.quiet ++ l)
  have hedge : edge (s.setInputs (Pins.offer (encode i) :: (List.replicate 4 Pins.quiet ++ l))) =
      acceptCommand i (s'.setRspValid false) := by
    have hword : decode (Pins.offer (encode i)).word = i := by rw [Pins.word_offer, decode_encode]
    rw [edge, edge_accept sbox (by rfl) (by rfl) (by exact hf), latchRspValid_of_idle (by exact hf)]
    exact congrArg (acceptCommand · _) hword
  rw [run_succ, hedge]
  rcases busyTime_cases sbox i s' with hb | ⟨-, ht, ha⟩
  · have hrun := run_acceptCommand i (s := s') hf (by rw [hb]; rfl)
    rw [hb, transact_setInputs] at hrun
    exact hrun
  · rw [ha]
    refine (run_quiet_of_idle (s := s.setRspValid false) hf rfl 4 l).trans ?_
    have hend := congrArg (·.setInputs l) (ht.symm.trans (transact_setInputs sbox i s _))
    exact congrArg _ hend

/-- Settles O48, by induction on the commands. -/
theorem commandSequencesRefineTransactions : Obligations.CommandSequencesRefineTransactions := by
  intro cmds s hf
  induction cmds generalizing s with
  | nil => rfl
  | cons i rest ih =>
    rw [List.length_cons, Nat.mul_succ, Nat.add_comm]
    exact (run_add 5 _ _ _ (run_spaced_command i hf _)).trans (ih _ ((transact_fsm sbox i s).trans hf))

/-- Settles O49: the two sequences as transactions; the second cipher has the key of the first, so it undoes it. -/
theorem loadEncryptDecryptGivesThePlaintext : Obligations.LoadEncryptDecryptGivesThePlaintext := by
  intro key p s hf
  let loaded := transact sbox (.keyload key) s
  let u := (transact sbox (.encrypt p) loaded).setInputs []
  have hu : u.fsm = .idle := (transact_fsm sbox _ loaded).trans ((transact_fsm sbox _ s).trans hf)
  obtain ⟨hkey, hvalid, hrsp, hres, -⟩ := transact_encrypt_registers sbox (s := loaded) p rfl
  obtain ⟨-, -, hrsp', hres', -⟩ := transact_decrypt_registers sbox (s := u) u.result hvalid
  refine ⟨u, _, commandSequencesRefineTransactions [.keyload key, .encrypt p] s hf, hrsp,
    commandSequencesRefineTransactions [.decrypt u.result] u hu, hrsp', hres'.trans ?_⟩
  have hu' : u.key = loaded.key ∧ u.result = _ := ⟨hkey, hres⟩
  rw [hu'.1, hu'.2]
  exact decryptBlock_encryptBlock sbox _ _ _ p

end Sys2Proof.Machine
end

section
/-! SUPPORT. The host beside the engine (30_encoding.md R79, R80; 70_reset_and_hazards.md R236 to R239): what a
directive does, one cycle with and without a command offered, and a command followed by the wait for its end. -/

namespace Sys2Proof.Machine

/-! ### Directives (R79) -/

section
variable {o : Outputs} (rest : List HostOp) (cap : Option Block) (bad : Bool)

theorem settle_waitKey_of_key (h : o.keyValid = true) :
    settle o (.waitKey :: rest) cap bad = settle o rest cap bad := if_pos h

theorem settle_waitKey_of_no_key (h : o.keyValid = false) :
    settle o (.waitKey :: rest) cap bad = ⟨.waitKey :: rest, cap, bad⟩ := if_neg (by simp [h])

theorem settle_waitRsp_of_response (h : o.rspValid = true) :
    settle o (.waitRsp :: rest) cap bad = settle o rest (some o.rspData) bad := if_pos h

theorem settle_waitRsp_of_no_response (h : o.rspValid = false) :
    settle o (.waitRsp :: rest) cap bad = ⟨.waitRsp :: rest, cap, bad⟩ := if_neg (by simp [h])

/-- A command stands still for the directives, whatever the outputs. -/
theorem settle_of_instr {op : HostOp} {i : Instr} (h : op.instr cap = some i) :
    settle o (op :: rest) cap bad = ⟨op :: rest, cap, bad⟩ := by
  cases op with
  | command | encryptResult | decryptResult => rfl
  | waitKey | waitRsp | expect => cases h

end

/-- Settles O52: one equation of `settle` per directive, by the output it waits for. -/
theorem hostDirectivesWaitAndCapture : Obligations.HostDirectivesWaitAndCapture := by
  intro h rest v
  refine ⟨fun _ => ⟨rfl, rfl, rfl⟩, fun hp hk => ?_, fun hp hk => ?_, fun hp hv => ?_, fun hp hv => ?_, fun hp => ?_⟩
  · have hview : h.view = ⟨h.program, h.captured, h.failed⟩ := by
      rw [HostSys.view, hp]; exact settle_waitKey_of_no_key _ _ _ hk
    exact ⟨hview, by rw [hview, hp]; rfl⟩
  · rw [HostSys.view, hp]; exact settle_waitKey_of_key _ _ _ hk
  · have hview : h.view = ⟨h.program, h.captured, h.failed⟩ := by
      rw [HostSys.view, hp]; exact settle_waitRsp_of_no_response _ _ _ hv
    exact ⟨hview, by rw [hview, hp]; rfl⟩
  · rw [HostSys.view, hp]; exact settle_waitRsp_of_response _ _ _ hv
  · have hne : (h.captured != some v) = decide (h.captured ≠ some v) := by simp [bne, beq_eq_decide]
    rw [HostSys.view, hp, ← hne]; rfl

/-! ### One cycle of host and engine -/

/-- A cycle is an edge of the engine with the ports the host drives. -/
theorem HostSys.step_eq (h : HostSys) :
    h.step = .next ⟨edge (h.engine.withPins (h.view.pins h.engine.pins.rst)), h.view.after (cmdReady h.engine),
      h.view.captured, h.view.failed⟩ := by
  rw [HostSys.step, Machine.step_eq]

section
variable {v : HostView} {i : Instr}

theorem HostView.pins_of_offered (h : v.offered = some i) (rst : Bool) :
    v.pins rst = { Pins.offer (encode i) with rst := rst } := by rw [HostView.pins, h]

theorem HostView.pins_of_not_offered (h : v.offered = none) (rst : Bool) :
    v.pins rst = { Pins.quiet with rst := rst } := by rw [HostView.pins, h]

theorem HostView.after_of_offered (h : v.offered = some i) (ready : Bool) :
    v.after ready = if ready then v.program.tail else v.program := by rw [HostView.after, h]; rfl

theorem HostView.after_of_not_offered (h : v.offered = none) (ready : Bool) : v.after ready = v.program := by
  rw [HostView.after, h]; rfl

end

/-- A command offered with `cmd_ready` 1 is executed and dropped from the listing. -/
theorem HostSys.step_of_ready {h : HostSys} {v : HostView} {i : Instr} (hv : h.view = v) (ho : v.offered = some i)
    (hr : cmdReady h.engine = true) :
    h.step = .next ⟨acceptCommand i (h.engine.nextCycle.setRspValid false), v.program.tail, v.captured, v.failed⟩ := by
  obtain ⟨hf, hrst⟩ := (cmdReady_eq_true_iff _).mp hr
  have hword : decode (Pins.offer (encode i)).word = i := by rw [Pins.word_offer, decode_encode]
  rw [HostSys.step_eq, hv, HostView.after_of_offered ho, hr, HostView.pins_of_offered ho, hrst, if_pos rfl, edge,
    edge_accept sbox (by rfl) (by rfl) (by exact hf), latchRspValid_of_idle (by exact hf)]
  exact congrArg (fun i => Host.Outcome.next (HostSys.mk (acceptCommand i _) _ _ _)) hword

/-- With `cmd_ready` 0 an edge looks at `rst` alone. -/
theorem edge_withPins_of_not_ready {s : State} (h : cmdReady s = false) {p : Pins} (hp : p.rst = s.pins.rst) :
    edge (s.withPins p) = if s.pins.rst then resetEdge s.nextCycle else quietEdge sbox s.nextCycle := by
  have hbusy : s.pins.rst = true ∨ s.fsm ≠ .idle := by
    by_contra hn
    obtain ⟨hr, hf⟩ : s.pins.rst = false ∧ s.fsm = .idle := by simpa using hn
    exact Bool.noConfusion (h.symm.trans ((cmdReady_eq_true_iff s).mpr ⟨hf, hr⟩))
  rw [← hp] at hbusy ⊢
  exact edgeWith_of_not_accepts sbox (accepts_eq_false_of_reset_or_busy (s := s.withPins p) hbusy)

/-- Settles O53: a command at the head of the listing is what the host offers; an edge that does not accept it does not
look at it. -/
theorem hostHoldsACommandUntilAccepted : Obligations.HostHoldsACommandUntilAccepted := by
  intro h op rest i hp hop
  have hview : h.view = ⟨h.program, h.captured, h.failed⟩ := by
    rw [HostSys.view, hp]; exact settle_of_instr _ _ _ hop
  have ho : HostView.offered ⟨h.program, h.captured, h.failed⟩ = some i := by rw [hp]; exact hop
  refine ⟨fun hr => ⟨_, ?_, exec_of_idle i ((cmdReady_eq_true_iff _).mp hr).1⟩, fun hr => ⟨_, ?_, step_eq _⟩⟩
  · rw [HostSys.step_of_ready hview ho hr, hp]; rfl
  · rw [HostSys.step_eq, hview, HostView.after_of_offered ho, hr, HostView.pins_of_offered ho,
      edge_withPins_of_not_ready hr (by rfl), edge_withPins_of_not_ready hr (by rfl)]
    rfl

/-! ### A listing on an engine that nobody resets -/

/-- Cycles of host and engine may be cut anywhere. -/
theorem HostSys.run_add (m n : Nat) {h g : HostSys} (hrun : h.run m = .next g) : h.run (m + n) = g.run n := by
  induction m generalizing h with
  | zero => injection hrun with hrun; subst hrun; simp
  | succ m ih =>
    rw [Nat.add_right_comm]
    simp only [HostSys.run] at hrun ⊢
    rw [HostSys.step_eq] at hrun ⊢
    exact ih hrun

/-- While the host waits and the engine has nothing more listed, the engine goes on by itself. -/
theorem HostSys.step_of_waiting {h : HostSys} {v : HostView} (hv : h.view = v) (ho : v.offered = none)
    (hi : h.engine.inputs = []) : h.step = .next ⟨quietEdge sbox h.engine, v.program, v.captured, v.failed⟩ := by
  have hrst : h.engine.pins.rst = false := by rw [pins_of_inputs_nil hi]; rfl
  have hnext : h.engine.nextCycle = h.engine := State.ext rfl rfl rfl rfl rfl rfl (by simp [hi])
  have hquiet : accepts (h.engine.withPins { Pins.quiet with rst := false }) = false := rfl
  rw [HostSys.step_eq, hv, HostView.after_of_not_offered ho, HostView.pins_of_not_offered ho, hrst, edge,
    edgeWith_of_not_accepts sbox hquiet, State.withPins_nextCycle, hnext]
  rfl

/-- A host that waits for `n` cycles leaves the engine to itself. -/
theorem HostSys.run_waiting {n : Nat} {e : State} {prog : List HostOp} {cap : Option Block} {bad : Bool}
    (ho : HostView.offered ⟨prog, cap, bad⟩ = none) (hi : e.inputs = [])
    (hwait : ∀ j < n, settle (outputs ((quietEdge sbox)^[j] e)) prog cap bad = ⟨prog, cap, bad⟩) :
    HostSys.run n ⟨e, prog, cap, bad⟩ = .next ⟨(quietEdge sbox)^[n] e, prog, cap, bad⟩ := by
  induction n generalizing e with
  | zero => rfl
  | succ n ih =>
    have hstep := HostSys.step_of_waiting (h := ⟨e, prog, cap, bad⟩) (hwait 0 n.succ_pos) ho hi
    have hinputs : (quietEdge sbox e).inputs = [] := (fsmStep_inputs sbox _).trans hi
    rw [HostSys.run, hstep]
    exact ih hinputs fun j hj => hwait (j + 1) (Nat.succ_lt_succ hj)

/-- A command with a busy time, and behind it a directive that waits as long: after five cycles the command has had its
whole effect (R175) and the directive is at the head of the listing. -/
theorem HostSys.run_command_and_wait {h : HostSys} {op wait : HostOp} {rest : List HostOp} {cap : Option Block}
    {bad : Bool} {i : Instr} (hv : h.view = ⟨op :: wait :: rest, cap, bad⟩) (hop : op.instr cap = some i)
    (hf : h.engine.fsm = .idle) (hi : h.engine.inputs = []) (hb : busyTime i h.engine = 4)
    (hnone : wait.instr cap = none)
    (hwait : ∀ j < 4, settle
      (outputs ((quietEdge sbox)^[j] (acceptCommand i (h.engine.setRspValid false)))) (wait :: rest) cap bad =
        ⟨wait :: rest, cap, bad⟩) :
    h.run 5 = .next ⟨transact sbox i h.engine, wait :: rest, cap, bad⟩ := by
  have hready : cmdReady h.engine = true :=
    (cmdReady_eq_true_iff _).mpr ⟨hf, by rw [pins_of_inputs_nil hi]; rfl⟩
  have hnext : h.engine.nextCycle = h.engine := State.ext rfl rfl rfl rfl rfl rfl (by simp [hi])
  have heffect := iterate_quietEdge_acceptCommand sbox i hf
  rw [HostSys.run, HostSys.step_of_ready hv hop hready, hnext, ← heffect, hb]
  exact HostSys.run_waiting hnone ((acceptCommand_inputs i _).trans hi) hwait

/-- A KEYLOAD shows `key_valid` 0 until it is over (R240). -/
theorem keyValid_iterate_quietEdge_keyload (key : Block) (s : State) {j : Nat} (hj : j < 4) :
    ((quietEdge sbox)^[j] (acceptCommand (.keyload key) s)).keyValid = false := by
  interval_cases j <;> rfl

/-- A cipher shows `rsp_valid` 0 until it is over (R169). -/
theorem rspValid_iterate_quietEdge_cipher {s : State} (hf : s.fsm = .encS2 ∨ s.fsm = .decS2)
    (hv : s.rspValid = false) {j : Nat} (hj : j < 4) : ((quietEdge sbox)^[j] s).rspValid = false := by
  cases j with
  | zero => exact hv
  | succ j =>
    have hj : j < 3 := by omega
    rw [iterate_quietEdge_eq, State.setRspValid_rspValid]
    rcases hf with hf | hf <;> rw [hf] <;> interval_cases j <;> rfl

section
variable {h : HostSys} {op : HostOp} {rest : List HostOp} {cap : Option Block} {bad : Bool}

/-- A cipher command with a key, and the WAITRSP behind it, up to the response. -/
theorem HostSys.run_cipher {i : Instr} (hv : h.view = ⟨op :: .waitRsp :: rest, cap, bad⟩) (hop : op.instr cap = some i)
    (hf : h.engine.fsm = .idle) (hi : h.engine.inputs = []) (hk : h.engine.keyValid = true)
    (hc : (∃ p, i = .encrypt p) ∨ ∃ c, i = .decrypt c) :
    h.run 5 = .next ⟨transact sbox i h.engine, .waitRsp :: rest, cap, bad⟩ := by
  have hentry : (acceptCommand i (h.engine.setRspValid false)).fsm = entryState true i := by
    rw [acceptCommand_fsm (s := h.engine.setRspValid false) i hf, ← hk]; rfl
  refine HostSys.run_command_and_wait hv hop hf hi ?_ rfl fun j hj => settle_waitRsp_of_no_response _ _ _ ?_
  · rcases hc with ⟨p, rfl⟩ | ⟨c, rfl⟩
    · exact busyTime_encrypt_of_key p hk
    · exact busyTime_decrypt_of_key c hk
  · refine rspValid_iterate_quietEdge_cipher ?_ (acceptCommand_rspValid i _) hj
    rw [hentry]
    rcases hc with ⟨p, rfl⟩ | ⟨c, rfl⟩
    · exact .inl rfl
    · exact .inr rfl

end

/-- Settles O54: three commands, each with the wait for its end, and one cycle for the last capture; the decryption has
the key of the encryption, so it gives the plaintext back. -/
theorem roundtripExpansionCapturesThePlaintext : Obligations.RoundtripExpansionCapturesThePlaintext := by
  intro k p s cap bad hf hi
  refine ⟨rfl, ?_⟩
  let loaded := transact sbox (.keyload k) s
  let enciphered := transact sbox (.encrypt p) loaded
  let deciphered := transact sbox (.decrypt enciphered.result) enciphered
  have hfe : enciphered.fsm = .idle := (transact_fsm sbox _ loaded).trans ((transact_fsm sbox _ s).trans hf)
  obtain ⟨hkey, hvalid, hrsp, hres, hinputs⟩ := transact_encrypt_registers sbox (s := loaded) p rfl
  obtain ⟨-, -, hrsp', hres', hinputs'⟩ := transact_decrypt_registers sbox (s := enciphered) enciphered.result hvalid
  have hplain : deciphered.result = p := by
    have he : enciphered.key = loaded.key ∧ enciphered.result = _ := ⟨hkey, hres⟩
    rw [hres', he.1, he.2]
    exact decryptBlock_encryptBlock sbox _ _ _ p
  have hload : HostSys.run 5 ⟨s, roundtrip k p, cap, bad⟩ = .next ⟨loaded, (roundtrip k p).tail, cap, bad⟩ :=
    HostSys.run_command_and_wait (h := ⟨s, roundtrip k p, cap, bad⟩) (op := .command (.keyload k)) rfl rfl hf hi rfl rfl
      fun j hj => settle_waitKey_of_no_key _ _ _ (keyValid_iterate_quietEdge_keyload k _ hj)
  have hencrypt : HostSys.run 5 ⟨loaded, (roundtrip k p).tail, cap, bad⟩ =
      .next ⟨enciphered, [.waitRsp, .decryptResult, .waitRsp], cap, bad⟩ :=
    HostSys.run_cipher (op := .command (.encrypt p)) (settle_waitKey_of_key (o := outputs loaded) _ _ _ rfl) rfl hf
      hi rfl (.inl ⟨p, rfl⟩)
  have hdecrypt : HostSys.run 5 ⟨enciphered, [.waitRsp, .decryptResult, .waitRsp], cap, bad⟩ =
      .next ⟨deciphered, [.waitRsp], some enciphered.result, bad⟩ :=
    HostSys.run_cipher (op := .decryptResult) (settle_waitRsp_of_response (o := outputs enciphered) _ _ _ hrsp) rfl hfe
      (hinputs.trans hi) hvalid (.inr ⟨_, rfl⟩)
  have hlast := HostSys.step_of_waiting (h := ⟨deciphered, [.waitRsp], some enciphered.result, bad⟩)
    (settle_waitRsp_of_response _ _ _ hrsp') rfl (hinputs'.trans (hinputs.trans hi))
  refine ⟨⟨quietEdge sbox deciphered, [], some deciphered.result, bad⟩, (HostSys.run_add 5 11 hload).trans
    ((HostSys.run_add 5 6 hencrypt).trans ((HostSys.run_add 5 1 hdecrypt).trans ?_)), rfl, congrArg some hplain, rfl⟩
  rw [HostSys.run, hlast]
  rfl

end Sys2Proof.Machine
end

section
/-! SUPPORT. The assembler (30_encoding.md R78): digits and the numbers they stand for, the characters of an operand,
and how a line is cut into its tokens. -/

namespace Sys2Proof.Machine

/-! ### Digits -/

/-- A digit's character is read as the digit. -/
theorem digitValue_hexDigit (n : Nibble) : digitValue (hexDigit n) = some n.toNat := by
  revert n
  decide

theorem toNat_ofNat_of_digit {d : Nat} (h : d < 16) : (BitVec.ofNat 4 d).toNat = d := Nat.mod_eq_of_lt h

/-- The digits of a number are read most significant first. -/
theorem readDigits_digitText {base : Nat} (hb : base ≤ 16) {ds : List Nat} (h : ∀ d ∈ ds, d < base) (acc : Nat) :
    readDigits base acc (digitText ds) = some (ds.foldl (fun n d => base * n + d) acc) := by
  induction ds generalizing acc with
  | nil => rfl
  | cons d ds ih =>
    obtain ⟨hd, hds⟩ := List.forall_mem_cons.mp h
    have hvalue : digitValue (hexDigit (BitVec.ofNat 4 d)) = some d := by
      rw [digitValue_hexDigit, toNat_ofNat_of_digit (hd.trans_le hb)]
    rw [digitText, List.map_cons, readDigits, hvalue]
    exact (if_pos hd).trans (ih hds _)

theorem readNumber_digitText {base most : Nat} (hb : base ≤ 16) {ds : List Nat} (hne : ds ≠ [])
    (hlen : ds.length ≤ most) (h : ∀ d ∈ ds, d < base) :
    readNumber base most (digitText ds) = some (digitsValue base ds) := by
  have hfits : ((digitText ds).isEmpty || decide (most < (digitText ds).length)) = false := by
    simp [digitText, hne, hlen]
  rw [readNumber, hfits]
  exact readDigits_digitText hb h 0

/-! ### The characters of an operand -/

/-- A character that ends no token and begins no comment, and is not the `@` of `@RESULT`. -/
def isPlain (c : Char) : Bool := c != ' ' && c != '\t' && c != ',' && c != ';' && c != '@'

theorem isPlain_hexDigit (n : Nibble) :
    isPlain (hexDigit n) = true ∧ hexDigit n ≠ 'x' ∧ hexDigit n ≠ 'b' := by
  revert n
  decide

theorem mem_digitText {ds : List Nat} {c : Char} (h : c ∈ digitText ds) : ∃ n : Nibble, c = hexDigit n := by
  obtain ⟨d, -, rfl⟩ := List.mem_map.mp h
  exact ⟨_, rfl⟩

/-- A text of the grammar of `imm16` is one token, and not `@RESULT`. -/
theorem ImmText.plain {cs : List Char} {n : Nat} (h : ImmText cs n) : cs ≠ [] ∧ ∀ c ∈ cs, isPlain c = true := by
  have hdigits (ds : List Nat) : ∀ c ∈ digitText ds, isPlain c = true := by
    intro c hc
    obtain ⟨n, rfl⟩ := mem_digitText hc
    exact (isPlain_hexDigit n).1
  cases h with
  | decimal ds hne => exact ⟨by simpa [digitText] using hne, hdigits ds⟩
  | binary ds => exact ⟨nofun, List.forall_mem_cons.mpr ⟨rfl, List.forall_mem_cons.mpr ⟨rfl, hdigits ds⟩⟩⟩
  | hexadecimal ds => exact ⟨nofun, List.forall_mem_cons.mpr ⟨rfl, List.forall_mem_cons.mpr ⟨rfl, hdigits ds⟩⟩⟩

/-- A text with no `x` and no `b` is read as a decimal number. -/
theorem readImm_of_no_base_mark {cs : List Char} (hx : 'x' ∉ cs) (hb : 'b' ∉ cs) :
    readImm cs = readNumber 10 cs.length cs := by
  unfold readImm
  split
  · simp at hx
  · simp at hb
  · rfl

/-- R78: a text of the grammar is read as the number it stands for. -/
theorem readImm_of_immText {cs : List Char} {n : Nat} (h : ImmText cs n) : readImm cs = some n := by
  cases h with
  | decimal ds hne hds =>
    have hmark (c : Char) (hc : ∀ n, hexDigit n ≠ c) : c ∉ digitText ds := by
      intro h
      obtain ⟨n, rfl⟩ := mem_digitText h
      exact hc n rfl
    rw [readImm_of_no_base_mark (hmark 'x' fun n => (isPlain_hexDigit n).2.1)
      (hmark 'b' fun n => (isPlain_hexDigit n).2.2)]
    exact readNumber_digitText (by omega) hne (by simp [digitText]) hds
  | binary ds hne hshort hds => exact readNumber_digitText (by omega) hne hshort hds
  | hexadecimal ds hne hshort hds => exact readNumber_digitText (by omega) hne hshort hds

/-! ### Operands in and out of range -/

section
variable {cs : List Char} {n : Nat}

theorem parseImm_of_le (h : readImm cs = some n) (hn : n ≤ 65535) : parseImm cs = .ok (BitVec.ofNat 16 n) := by
  rw [parseImm, h]; exact if_pos (decide_eq_true hn)

theorem parseImm_of_lt (h : readImm cs = some n) (hn : 65535 < n) : parseImm cs = .error .immediateOutOfRange := by
  rw [parseImm, h]; exact if_neg fun h => Nat.not_le.mpr hn (of_decide_eq_true h)

theorem parseImm_of_not_read (h : readImm cs = none) : parseImm cs = .error .badImmediate := by rw [parseImm, h]

theorem withImm_of_le (f : Block → HostOp) (h : readImm cs = some n) (hn : n ≤ 65535) :
    withImm f cs = .ok [f (BitVec.ofNat 16 n)] := by rw [withImm, parseImm_of_le h hn]

theorem withImm_of_lt (f : Block → HostOp) (h : readImm cs = some n) (hn : 65535 < n) :
    withImm f cs = .error .immediateOutOfRange := by rw [withImm, parseImm_of_lt h hn]

theorem toNat_ofNat_of_le (hn : n ≤ 65535) : (BitVec.ofNat 16 n).toNat = n := Nat.mod_eq_of_lt (by omega)

end

/-! ### A line and its tokens -/

/-- Plain characters go on with the token begun. -/
theorem tokenize_plain_append {cs : List Char} (h : ∀ c ∈ cs, isPlain c = true) (cur rest : List Char) :
    tokenize cur (cs ++ rest) = tokenize (cur ++ cs) rest := by
  induction cs generalizing cur with
  | nil => simp
  | cons c cs ih =>
    obtain ⟨hc, hcs⟩ := List.forall_mem_cons.mp h
    have hblank : ¬ (c = ' ' ∨ c = '\t') := by rintro (rfl | rfl) <;> cases hc
    have hcomma : c ≠ ',' := by rintro rfl; cases hc
    rw [List.cons_append, tokenize, if_neg hblank, if_neg hcomma, ih hcs, List.append_assoc, List.singleton_append]

theorem pushToken_of_ne_nil {cur : List Char} (h : cur ≠ []) (rest : List (List Char)) :
    pushToken cur rest = cur :: rest := if_neg (by simpa using h)

section
variable {cs : List Char} (hne : cs ≠ []) (h : ∀ c ∈ cs, isPlain c = true)
include hne h

/-- A text of plain characters is a token: at the end of the line, before a blank and before a comma. -/
theorem tokenize_plain : tokenize [] cs = [cs] := by
  have happend := tokenize_plain_append h [] []
  rw [List.append_nil, List.nil_append] at happend
  rw [happend, tokenize, pushToken_of_ne_nil hne]

theorem tokenize_plain_blank (rest : List Char) : tokenize [] (cs ++ ' ' :: rest) = cs :: tokenize [] rest := by
  rw [tokenize_plain_append h, List.nil_append, tokenize, if_pos (.inl rfl), pushToken_of_ne_nil hne]

theorem tokenize_plain_comma (rest : List Char) :
    tokenize [] (cs ++ ',' :: rest) = cs :: [','] :: tokenize [] rest := by
  rw [tokenize_plain_append h, List.nil_append, tokenize, if_neg (by decide), if_pos rfl, pushToken_of_ne_nil hne]

end

/-- A line without `;` has no comment. -/
theorem stripComment_eq_self {cs : List Char} (h : ';' ∉ cs) : stripComment cs = cs :=
  List.takeWhile_eq_self_iff.mpr fun c hc => by simpa using fun he : c = ';' => h (he ▸ hc)

theorem semicolon_notMem_of_plain {cs : List Char} (h : ∀ c ∈ cs, isPlain c = true) : ';' ∉ cs :=
  fun hc => Bool.noConfusion (h ';' hc)

/-- A mnemonic and one operand: the operand is looked at as the mnemonic says. -/
theorem assembleLine_one_operand {name cs : List Char} {m : Mnemonic} (hname : name ≠ [])
    (hplain : ∀ c ∈ name, isPlain c = true) (hm : mnemonicTable.lookup name = some m) (hne : cs ≠ [])
    (hcs : ∀ c ∈ cs, isPlain c = true) : assembleLine (name ++ ' ' :: cs) = parseOperands m [cs] := by
  have hcomment : ';' ∉ name ++ ' ' :: cs := by
    simpa using ⟨semicolon_notMem_of_plain hplain, semicolon_notMem_of_plain hcs⟩
  rw [assembleLine, stripComment_eq_self hcomment, tokenize_plain_blank hname hplain, tokenize_plain hne hcs]
  simp only [hm]

/-- The lines of R78 and R79 that take an `imm16` read it as their one operand. -/
theorem assembleLine_immLines {cs : List Char} (hne : cs ≠ []) (hcs : ∀ c ∈ cs, isPlain c = true)
    {l : List Char × (Block → HostOp)} (hl : l ∈ immLines) : assembleLine (l.1 ++ ' ' :: cs) = withImm l.2 cs := by
  have hresult : cs ≠ atResult := by
    rintro rfl
    exact Bool.noConfusion (hcs '@' (by decide))
  simp only [immLines, List.mem_cons, List.not_mem_nil, or_false] at hl
  rcases hl with rfl | rfl | rfl | rfl
  · exact assembleLine_one_operand (m := .keyload) (by decide) (List.all_eq_true.mp rfl) rfl hne hcs
  · refine (assembleLine_one_operand (m := .encrypt) (by decide) (List.all_eq_true.mp rfl) rfl hne hcs).trans ?_
    exact if_neg hresult
  · refine (assembleLine_one_operand (m := .decrypt) (by decide) (List.all_eq_true.mp rfl) rfl hne hcs).trans ?_
    exact if_neg hresult
  · exact assembleLine_one_operand (m := .expect) (by decide) (List.all_eq_true.mp rfl) rfl hne hcs

/-- The line of a ROUNDTRIP reads its two operands. -/
theorem assembleLine_roundtripLine {ks ps : List Char} (hk : ks ≠ []) (hks : ∀ c ∈ ks, isPlain c = true)
    (hp : ps ≠ []) (hps : ∀ c ∈ ps, isPlain c = true) :
    assembleLine (roundtripLine ks ps) = parseRoundtrip ks ps := by
  have hline : roundtripLine ks ps =
      ['R', 'O', 'U', 'N', 'D', 'T', 'R', 'I', 'P'] ++ ' ' :: (ks ++ ',' :: ' ' :: ps) := by
    simp [roundtripLine]
  have hcomment : ';' ∉ roundtripLine ks ps := by
    simpa [roundtripLine] using ⟨semicolon_notMem_of_plain hks, semicolon_notMem_of_plain hps⟩
  have htokens : tokenize [] (roundtripLine ks ps) =
      [['R', 'O', 'U', 'N', 'D', 'T', 'R', 'I', 'P'], ks, [','], ps] := by
    rw [hline, tokenize_plain_blank (by decide) (List.all_eq_true.mp rfl), tokenize_plain_comma hk hks, tokenize,
      if_pos (.inl rfl), tokenize_plain hp hps]
    rfl
  rw [assembleLine, stripComment_eq_self hcomment, htokens]
  rfl

/-- Settles O51: the reader follows the grammar, the range check is on the whole number, and the lines hand it the
operand texts as they stand. -/
theorem immediatesAreNeverTruncated : Obligations.ImmediatesAreNeverTruncated := by
  refine ⟨fun cs n => readImm_of_immText, fun cs n h => ⟨fun hn => ⟨_, parseImm_of_le h hn, toNat_ofNat_of_le hn⟩,
    parseImm_of_lt h⟩, fun cs => parseImm_of_not_read, fun cs n ht l hl => ?_, fun ks ps k p hk hp => ?_⟩
  · have hread := readImm_of_immText ht
    rw [assembleLine_immLines ht.plain.1 ht.plain.2 hl]
    exact ⟨fun hn => ⟨_, toNat_ofNat_of_le hn, withImm_of_le _ hread hn⟩, withImm_of_lt _ hread⟩
  · have hreadk := readImm_of_immText hk
    have hreadp := readImm_of_immText hp
    rw [assembleLine_roundtripLine hk.plain.1 hk.plain.2 hp.plain.1 hp.plain.2, parseRoundtrip]
    refine ⟨fun hkn hpn => ⟨_, _, toNat_ofNat_of_le hkn, toNat_ofNat_of_le hpn, ?_⟩, fun h => ?_⟩
    · rw [parseImm_of_le hreadk hkn, parseImm_of_le hreadp hpn]
    · rcases Nat.lt_or_ge 65535 k with hkn | hkn
      · rw [parseImm_of_lt hreadk hkn]
      · rw [parseImm_of_le hreadk hkn, parseImm_of_lt hreadp (h.resolve_left (Nat.not_lt.mpr hkn))]

/-! ### Command lines -/

/-- The text of an operand is of the grammar and stands for the operand. -/
theorem immText_hexText (v : Block) : ImmText (hexText v) v.toNat := by
  let ds := [(v.extractLsb' 12 4).toNat, (v.extractLsb' 8 4).toNat, (v.extractLsb' 4 4).toNat,
    (v.extractLsb' 0 4).toNat]
  have hdigits : ∀ d ∈ ds, d < 16 := by
    simp only [ds, List.forall_mem_cons]
    exact ⟨BitVec.isLt _, BitVec.isLt _, BitVec.isLt _, BitVec.isLt _, nofun⟩
  have htext : '0' :: 'x' :: digitText ds = hexText v := by
    simp only [ds, digitText, hexText, List.map_cons, List.map_nil, BitVec.ofNat_toNat, BitVec.setWidth_eq]
  have hvalue : digitsValue 16 ds = v.toNat := by
    have hlt := v.isLt
    simp only [ds, digitsValue, List.foldl_cons, List.foldl_nil, toNat_nibbleAt]
    omega
  rw [← htext, ← hvalue]
  exact .hexadecimal ds (by simp [ds]) (by simp [ds]) hdigits

/-- Settles O50: the text of the operand is an `imm16` that stands for the operand. -/
theorem assemblerReadsEveryCommand : Obligations.AssemblerReadsEveryCommand := by
  have hline (v : Block) (l) (hl : l ∈ immLines) : assembleLine (l.1 ++ ' ' :: hexText v) = .ok [l.2 v] := by
    have ht := immText_hexText v
    rw [assembleLine_immLines ht.plain.1 ht.plain.2 hl,
      withImm_of_le _ (readImm_of_immText ht) (Nat.le_of_lt_succ v.isLt), BitVec.ofNat_toNat, BitVec.setWidth_eq]
  refine fun i => ⟨?_, fun _ => rfl⟩
  cases i with
  | nop => rfl
  | keyload key => exact hline key _ (.head _)
  | encrypt p => exact hline p _ (.tail _ (.head _))
  | decrypt c => exact hline c _ (.tail _ (.tail _ (.head _)))

end Sys2Proof.Machine
end
